-- ==== Sys2Proof/Word.lean ====
section
/-! DEFINITION. The WWU-256's value types: the 256-bit Word (00_scope.md R5, R7), the byte (R10), and the
WideWord pair (R8). Words are unsigned throughout; nothing in the unit is signed (R11). -/

namespace Sys2Proof

/-- R5, R7: an unsigned 256-bit Word; bit i has weight 2^i. -/
abbrev Word := BitVec 256

/-- R10, R51: one byte of a ByteString or of the buffer BUF. -/
abbrev Byte := BitVec 8

/-- The Word with value `n mod 2^256` (R11: truncation only by an explicit `mod 2^n`). -/
def word (n : Nat) : Word := BitVec.ofNat 256 n

/-- R8: a double-width value held as the pair (high, low). -/
structure WideWord where
  high : Word
  low : Word
deriving DecidableEq, Repr

/-- R8: `value = high · 2^W + low`. -/
def WideWord.value (w : WideWord) : Nat := w.high.toNat * 2 ^ 256 + w.low.toNat

end Sys2Proof
end

