-- ==== Sys2Proof/Syntax.lean ====
section
/-! DEFINITION. The commands of the WWU-256 as syntax: one constructor of `Instr` for each of the 21 rows of
spec/opcode_table.json (30_encoding.md R75). A command's operands stand in the registers A–D (R77); the only
operand field of a command word is RND (R70). -/

namespace Sys2Proof

/-- R9: the closed enumeration of the four rounding policies. -/
inductive Rounding where
  | floor | ceil | trunc | expand
deriving DecidableEq, Repr

/-- R72: what the 3-bit RND field of a rounding command holds: the code of a Rounding, or one of the codes
4–7, which name none (`reserved k` is the code `4 + k`). -/
inductive RndField where
  | mode (r : Rounding)
  | reserved (k : Fin 4)
deriving DecidableEq, Repr

/-- R75: the 21 commands. A rounding command carries its RND field (R72); no other command has an operand
field. -/
inductive Instr where
  | add512 | mul512 | tryAdd | tryMul
  | ceilDiv | tryCeilDiv | mulDiv | tryMulDiv
  | mulDivR (rnd : RndField) | tryMulDivR (rnd : RndField)
  | sqrt (rnd : RndField) | log2 (rnd : RndField) | log10 (rnd : RndField) | log256 (rnd : RndField)
  | roundsUp (rnd : RndField)
  | clz
  | invMod | modExp | tryModExp | modExpB | tryModExpB
deriving DecidableEq, Repr

/-- R75: the operations the OP field selects (a command without its RND field). -/
inductive Op where
  | add512 | mul512 | tryAdd | tryMul
  | ceilDiv | tryCeilDiv | mulDiv | tryMulDiv | mulDivR | tryMulDivR
  | sqrt | log2 | log10 | log256 | roundsUp
  | clz
  | invMod | modExp | tryModExp | modExpB | tryModExpB
deriving DecidableEq, Repr

end Sys2Proof
end

