-- ==== Sys2Proof/WellFormed.lean ====
section
/-! DEFINITION. When a command is well formed: a rounding command's RND field holds the code of one of the four
Rounding variants (30_encoding.md R72). A command with a code 4–7 is a caller contract violation: it runs, and
ends in the strict failure DOMAIN (R74, 60_exceptions.md R261). -/

namespace Sys2Proof

/-- R72: the field holds the code of a Rounding. -/
def RndField.wellFormed : RndField → Bool
  | .mode _ => true
  | .reserved _ => false

/-- R72, R74: a rounding command is well formed when its RND field is; every other command has no field to
check. -/
def Instr.wellFormed : Instr → Bool
  | .add512 => true
  | .mul512 => true
  | .tryAdd => true
  | .tryMul => true
  | .ceilDiv => true
  | .tryCeilDiv => true
  | .mulDiv => true
  | .tryMulDiv => true
  | .mulDivR rnd => rnd.wellFormed
  | .tryMulDivR rnd => rnd.wellFormed
  | .sqrt rnd => rnd.wellFormed
  | .log2 rnd => rnd.wellFormed
  | .log10 rnd => rnd.wellFormed
  | .log256 rnd => rnd.wellFormed
  | .roundsUp rnd => rnd.wellFormed
  | .clz => true
  | .invMod => true
  | .modExp => true
  | .tryModExp => true
  | .modExpB => true
  | .tryModExpB => true

end Sys2Proof
end

