-- ==== Sys2Proof/Decode.lean ====
section
/-! DEFINITION. Decoding and encoding of the 256-bit command word (30_encoding.md R70–R76, R83): OP in bits
[7:0], RND in bits [10:8], bits [255:11] reserved zero. -/

namespace Sys2Proof

/-- R70: OP, bits [7:0] of a command word. -/
def opField (v : Word) : BitVec 8 := v.extractLsb' 0 8

/-- R70: RND, bits [10:8] of a command word. -/
def rndField (v : Word) : BitVec 3 := v.extractLsb' 8 3

/-- R70, R73: the reserved bits [255:11] of a command word. -/
def reservedField (v : Word) : BitVec 245 := v.extractLsb' 11 245

/-- R72: the code point of a Rounding. -/
def Rounding.code : Rounding → BitVec 3
  | .floor => 0
  | .ceil => 1
  | .trunc => 2
  | .expand => 3

/-- R72: the three bits of an RND field. -/
def RndField.code : RndField → BitVec 3
  | .mode r => r.code
  | .reserved k => BitVec.ofNat 3 (4 + k.val)

/-- R72: an RND field read from its three bits. -/
def RndField.ofCode (c : BitVec 3) : RndField :=
  if c = 0 then .mode .floor
  else if c = 1 then .mode .ceil
  else if c = 2 then .mode .trunc
  else if c = 3 then .mode .expand
  else .reserved (Fin.ofNat 4 c.toNat)

/-- R75: the operation code of each command. -/
def Op.code : Op → BitVec 8
  | .add512 => 0x01
  | .mul512 => 0x02
  | .tryAdd => 0x03
  | .tryMul => 0x04
  | .ceilDiv => 0x10
  | .tryCeilDiv => 0x11
  | .mulDiv => 0x12
  | .tryMulDiv => 0x13
  | .mulDivR => 0x14
  | .tryMulDivR => 0x15
  | .sqrt => 0x20
  | .log2 => 0x21
  | .log10 => 0x22
  | .log256 => 0x23
  | .roundsUp => 0x24
  | .clz => 0x30
  | .invMod => 0x40
  | .modExp => 0x41
  | .tryModExp => 0x42
  | .modExpB => 0x43
  | .tryModExpB => 0x44

/-- R75: every operation of the opcode map, in its order. -/
def Op.all : List Op :=
  [.add512, .mul512, .tryAdd, .tryMul, .ceilDiv, .tryCeilDiv, .mulDiv, .tryMulDiv, .mulDivR, .tryMulDivR,
   .sqrt, .log2, .log10, .log256, .roundsUp, .clz, .invMod, .modExp, .tryModExp, .modExpB, .tryModExpB]

/-- R71, R75: the opcode map read from the OP field; none for an OP that is not in it (R76). -/
def Op.ofCode (c : BitVec 8) : Option Op := Op.all.find? (fun o => o.code == c)

/-- R72, R75: the rounding commands, the only ones that use RND. -/
def Op.usesRnd : Op → Bool
  | .mulDivR | .tryMulDivR | .sqrt | .log2 | .log10 | .log256 | .roundsUp => true
  | .add512 | .mul512 | .tryAdd | .tryMul | .ceilDiv | .tryCeilDiv | .mulDiv | .tryMulDiv | .clz
  | .invMod | .modExp | .tryModExp | .modExpB | .tryModExpB => false

/-- The operation of a command. -/
def Instr.op : Instr → Op
  | .add512 => .add512
  | .mul512 => .mul512
  | .tryAdd => .tryAdd
  | .tryMul => .tryMul
  | .ceilDiv => .ceilDiv
  | .tryCeilDiv => .tryCeilDiv
  | .mulDiv => .mulDiv
  | .tryMulDiv => .tryMulDiv
  | .mulDivR _ => .mulDivR
  | .tryMulDivR _ => .tryMulDivR
  | .sqrt _ => .sqrt
  | .log2 _ => .log2
  | .log10 _ => .log10
  | .log256 _ => .log256
  | .roundsUp _ => .roundsUp
  | .clz => .clz
  | .invMod => .invMod
  | .modExp => .modExp
  | .tryModExp => .tryModExp
  | .modExpB => .modExpB
  | .tryModExpB => .tryModExpB

/-- The RND bits of a command: its RND field's for a rounding command, 0 for every other (R70). -/
def Instr.rndCode : Instr → BitVec 3
  | .mulDivR rnd | .tryMulDivR rnd | .sqrt rnd | .log2 rnd | .log10 rnd | .log256 rnd
  | .roundsUp rnd => rnd.code
  | .add512 | .mul512 | .tryAdd | .tryMul | .ceilDiv | .tryCeilDiv | .mulDiv | .tryMulDiv | .clz
  | .invMod | .modExp | .tryModExp | .modExpB | .tryModExpB => 0

/-- The command an operation and an RND field make (a command that is no rounding command drops the field). -/
def Instr.ofOp (o : Op) (rnd : RndField) : Instr :=
  match o with
  | .add512 => .add512
  | .mul512 => .mul512
  | .tryAdd => .tryAdd
  | .tryMul => .tryMul
  | .ceilDiv => .ceilDiv
  | .tryCeilDiv => .tryCeilDiv
  | .mulDiv => .mulDiv
  | .tryMulDiv => .tryMulDiv
  | .mulDivR => .mulDivR rnd
  | .tryMulDivR => .tryMulDivR rnd
  | .sqrt => .sqrt rnd
  | .log2 => .log2 rnd
  | .log10 => .log10 rnd
  | .log256 => .log256 rnd
  | .roundsUp => .roundsUp rnd
  | .clz => .clz
  | .invMod => .invMod
  | .modExp => .modExp
  | .tryModExp => .tryModExp
  | .modExpB => .modExpB
  | .tryModExpB => .tryModExpB

/-- R74: the three answers of the decoder. A DOMAIN word names the rounding command whose RND code is 4–7. -/
inductive Decoded where
  | illegal
  | domain (i : Instr)
  | op (i : Instr)
deriving DecidableEq, Repr

/-- R74: the decode of a command word, total on every Word. The tests stand in the rule's order: reserved bits,
the opcode map, RND of a command that has none, then the RND code of a rounding command. -/
def decode (v : Word) : Decoded :=
  if reservedField v ≠ 0 then .illegal
  else
    match Op.ofCode (opField v) with
    | none => .illegal
    | some o =>
      if o.usesRnd = false ∧ rndField v ≠ 0 then .illegal
      else
        let i := Instr.ofOp o (RndField.ofCode (rndField v))
        if i.wellFormed then .op i else .domain i

/-- R70, R83: the command word of a command, `OP(M) + 256 · RND`, every reserved bit 0. -/
def encode (i : Instr) : Word := 0#245 ++ i.rndCode ++ i.op.code

/-- The instruction the decoder reads from a table row's word (the low `nbits` bits of `w`, every bit above them
0). A command is one 256-bit word written whole to CMD (R55, R85), so no byte order applies. A DOMAIN word reads
as its row's command, with its reserved RND code. -/
def decodeTableWord (nbits w : Nat) : Option Instr :=
  match decode (word (w % 2 ^ nbits)) with
  | .illegal => none
  | .domain i => some i
  | .op i => some i

end Sys2Proof
end

