-- ==== Sys2Proof/Machine/Arith.lean ====
section
/-! DEFINITION. The pure functions on natural numbers behind the commands: floor square root (42_roots_logs.md
R172), floor logarithm (R174), leading zeros (43_bitops.md R210), modular inverse (44_modular.md R220) and
modular exponentiation (R221). The spec fixes their results and leaves the algorithm free
(93_implementation_defined.md I2–I4); those here recurse structurally, so that the kernel evaluates them. Their
defining properties are proved in Laws/Arith.lean. -/

namespace Sys2Proof.Machine

/-- The bits below `2^k` of the floor square root of `n`, decided from the highest down. -/
def isqrtFrom (n : Nat) : Nat → Nat → Nat
  | 0, r => r
  | k + 1, r => if (r + 2 ^ k) * (r + 2 ^ k) ≤ n then isqrtFrom n k (r + 2 ^ k) else isqrtFrom n k r

/-- R172: `isqrt(n)` for `n < 2^256`, the unique r with r² ≤ n < (r + 1)²; it is below 2^128. -/
def isqrt (n : Nat) : Nat := isqrtFrom n 128 0

/-- R174: `flog_β(n)` for `β ≥ 2` and `n < 2^256`: the largest r with β^r ≤ n, and 0 for n = 0. No r above 255
qualifies for any base (R178). -/
def flog (base n : Nat) : Nat := Nat.findGreatest (fun r => base ^ r ≤ n) 255

/-- R210: the largest i in [0, 255] with bit i of x set (0 when there is none). -/
def highestBit (x : Nat) : Nat := Nat.findGreatest (fun i => x.testBit i = true) 255

/-- R210: the number of leading zero bits of a 256-bit value, 256 for 0. -/
def leadingZeros (x : Nat) : Nat := if x = 0 then 256 else 255 - highestBit x

/-- One run of Euclid's algorithm on (r0, r1), with the coefficients t0, t1 modulo m for which
`tᵢ · v ≡ rᵢ (mod m)`; the answer is the coefficient of the last nonzero remainder. The first argument bounds
the number of divisions. -/
def euclid (m : Nat) : Nat → Nat → Nat → Nat → Nat → Nat
  | 0, _, _, t0, _ => t0
  | k + 1, r0, r1, t0, t1 =>
    if r1 = 0 then t0
    else euclid m k r1 (r0 % r1) t1 ((t0 + (m - (r0 / r1 * t1) % m)) % m)

/-- R220: the x with 0 ≤ x < m and (v · x) mod m = 1, for m > 1 and gcd(v, m) = 1. A remainder halves at least
every second division, so 514 divisions are enough for m < 2^256. -/
def modInverse (v m : Nat) : Nat := euclid m 514 m (v % m) 0 1

/-- Square-and-multiply over the low `k` bits of the exponent. -/
def powModBits (m : Nat) : Nat → Nat → Nat → Nat
  | 0, _, _ => 1 % m
  | k + 1, b, e =>
    if e % 2 = 1 then (b * powModBits m k (b * b % m) (e / 2)) % m
    else powModBits m k (b * b % m) (e / 2)

/-- R221, R224: `(b^e) mod m`, with b^0 = 1. -/
def powMod (b e m : Nat) : Nat := powModBits m (e.log2 + 1) (b % m) e

end Sys2Proof.Machine
end

