-- ==== Sys2Proof/Config.lean ====
section
/-! DEFINITION. What an implementation of the WWU-256 fixes (the open parameter BUF_BYTES, 00_scope.md R6,
92_eei_decisions.md D17) and the free values the spec leaves open (the draws of 10_state.md R21 and
20_memory.md R52). Every constant here is opaque and has no body: no proof can see its value. -/

namespace Sys2Proof.Config

/-- The open parameter `BUF_BYTES` less one, so that its range `1 ≤ BUF_BYTES ≤ 2^32 − 1` (R6) holds by the
type. notes/assumptions/3.md. -/
opaque bufBytesLessOne : Fin 4294967295

/-- R6, D17: `BUF_BYTES`, the size of the byte buffer of the machine that `State.reset` describes. -/
def bufBytes : Nat := bufBytesLessOne.val + 1

/-- R21, D32 (93 I8): the Word a host read of an unwritten operand register returns, one free value for each
number of the draw. notes/assumptions/4.md. -/
opaque drawWord : Nat → Word

/-- R52, D32 (93 I8): the byte a host read of an unwritten BUF byte returns, one free value for each number of
the draw. notes/assumptions/4.md. -/
opaque drawByte : Nat → Byte

end Sys2Proof.Config
end

