-- ==== Sys2Proof/Machine/State.lean ====
section
/-! DEFINITION. The state of the WWU-256 (10_state.md R20–R36), the host transactions it accepts (20_memory.md
R52, R55; 30_encoding.md R82), the reasons a step can stop, and the state after reset (70_reset_and_hazards.md
R290). -/

namespace Sys2Proof.Machine

/-- R21–R24: the four operand registers, in the order commands read them (R77). -/
inductive OperandName where
  | A | B | C | D
deriving DecidableEq, Repr

/-- R20: the nine host-visible registers. -/
inductive RegName where
  | operand (x : OperandName)
  | cmd | hi | lo | status | cfg
deriving DecidableEq, Repr

/-- R50: the two host-visible address spaces. -/
inductive Space where
  | register | buffer
deriving DecidableEq, Repr

/-- R268, R269: the model faults. The spec makes them a RECORD: the model appends one to `faults` (R36) and the
machine goes on with the next transaction. They are no `Fault` of the step. -/
inductive ModelFault where
  /-- R269: a command reads an operand register not written since reset. -/
  | uninitOperand (x : OperandName)
  /-- R269: a byte-string command reads a BUF byte not written since reset. -/
  | uninitBuffer (addr : Nat)
  /-- R268: a host access to a register index ≥ 9 or a buffer address ≥ BUF_BYTES. -/
  | hostBusError (space : Space) (index : Nat)
deriving DecidableEq, Repr

/-- R12, R30: the strict failures a command can end in. -/
inductive StrictError where
  | divisionByZero | overflow | domain | illegalCommand | badDescriptor
deriving DecidableEq, Repr

/-- R52, R55, R82: one host transaction. A register write to CMD (index 4) executes one command (R25). -/
inductive HostTxn where
  | regRead (index : Nat)
  | regWrite (index : Nat) (v : Word)
  | bufRead (addr : Nat)
  | bufWrite (addr : Nat) (b : Byte)
  | reset
deriving DecidableEq, Repr

/-- What the host port returns to the host for a transaction: the register of a `RegRead` (R55), the byte of a
`BufRead` (R52), nothing for a write, a reset, or a bus error (whose answer the spec leaves open, 93 I7). -/
inductive HostAnswer where
  | none
  | word (v : Word)
  | byte (b : Byte)
deriving DecidableEq, Repr

/-- R21: an operand register: the Word it holds, and whether the host has written it since reset. The pair is
the spec's `Option Word`: `written = false` is its `none`; no operation reads `value` then. -/
structure OperandReg where
  value : Word
  written : Bool
deriving DecidableEq, Repr

/-- R51: the byte buffer BUF as the list of its written bytes, addresses strictly rising (`Memory.wf` in
Machine/Ops.lean); an address that is not listed is unwritten (R36's `none`). -/
abbrev Memory := List Host.Cell

/-- R36: the state of the unit, with the host's side of the port (`pending`, `answer`, `hpc`), the parameter
BUF_BYTES and the number of the next draw, which are the model's own fields. -/
structure State where
  /-- R21: operand register A (index 0). -/
  a : OperandReg
  /-- R22: operand register B (index 1). -/
  b : OperandReg
  /-- R23: operand register C (index 2). -/
  c : OperandReg
  /-- R24: operand register D (index 3). -/
  d : OperandReg
  /-- R25: CMD (index 4), the last command word written. -/
  cmd : Word
  /-- R26: HI (index 5). -/
  hi : Word
  /-- R27: LO (index 6). -/
  lo : Word
  /-- R29: STATUS.OK. -/
  ok : Bool
  /-- R30: STATUS.ERR, a 3-bit code. -/
  err : BitVec 3
  /-- R31: STATUS.STICKY. -/
  sticky : Bool
  /-- R51: BUF. -/
  buf : Memory
  /-- R36, R268, R269: the model faults recorded so far, oldest first; never cleared (R290). -/
  faults : List ModelFault
  /-- R34: the host transaction index; nothing in the unit reads it. -/
  hpc : Nat
  /-- R6: the parameter BUF_BYTES; no step and no reset changes it. -/
  bufBytes : Nat
  /-- R63, R82: the host transactions not yet performed, in issue order (the host's program). -/
  pending : List HostTxn
  /-- R52, R55: what the port returned for the last transaction. -/
  answer : HostAnswer
  /-- R21, R52: how many draws have been made (the number of the next free value). -/
  draws : Nat
deriving DecidableEq, Repr

/-- The reasons a step of this machine stops with a fault: NONE. Every command ends in a commit or in a recorded
model fault (R260), and every transaction out of range is a recorded model fault (R268), after all of which the
unit accepts the next transaction (R263, R270). -/
inductive Fault where
deriving DecidableEq, Repr

/-- The reasons a step refuses. -/
inductive Refusal where
  /-- Raised by a refused arm of `exec` for an instruction that has no meaning yet; no arm raises it in this
  model. Safe: the model stops where the hardware goes on. -/
  | notModelled (mnemonic : String)
deriving DecidableEq, Repr

/-- R21–R24, R290: an operand register after reset: unwritten. The Word it then holds, 0, is a DESIGN CHOICE
(notes/assumptions/2.md); no operation reads it. -/
def OperandReg.unwritten : OperandReg := { value := 0, written := false }

/-- R290: the state after reset of a unit whose buffer has `n` bytes, before any transaction. -/
def State.resetWith (n : Nat) : State where
  a := .unwritten
  b := .unwritten
  c := .unwritten
  d := .unwritten
  cmd := 0
  hi := 0
  lo := 0
  ok := false
  err := 0
  sticky := false
  buf := []
  faults := []
  hpc := 0
  bufBytes := n
  pending := []
  answer := .none
  draws := 0

/-- R290, R291: the machine right after power-on reset, idle, for the open parameter BUF_BYTES (R6). -/
def State.reset : State := State.resetWith Config.bufBytes

end Sys2Proof.Machine
end

