-- ==== Sys2Proof/Machine/Flags.lean ====
section
/-! DEFINITION. STATUS: its error codes (10_state.md R30), what each outcome of a command does to its three
fields (R29–R31), and the register as the host reads it (R28). -/

namespace Sys2Proof.Machine

/-- R30: the ERR code NONE. -/
def errNone : BitVec 3 := 0

/-- R30: the ERR code of a strict failure. -/
def StrictError.code : StrictError → BitVec 3
  | .divisionByZero => 1
  | .overflow => 2
  | .domain => 3
  | .illegalCommand => 4
  | .badDescriptor => 5

/-- R80: STATUS at a success commit: OK 1, ERR NONE, STICKY unchanged. -/
def flagsSuccess (s : State) : State := { s with ok := true, err := errNone }

/-- R81: STATUS at a try-failure commit: OK 0, ERR NONE, STICKY unchanged. -/
def flagsTryFail (s : State) : State := { s with ok := false, err := errNone }

/-- R262: STATUS at a strict-failure commit: OK 0, ERR the failure's code, STICKY 1. -/
def flagsStrict (e : StrictError) (s : State) : State :=
  { s with ok := false, err := e.code, sticky := true }

/-- R28: STATUS as a register, `OK + 2·ERR + 16·STICKY`; bits [255:5] read 0. -/
def statusWord (s : State) : Word :=
  0#251 ++ BitVec.ofBool s.sticky ++ s.err ++ BitVec.ofBool s.ok

end Sys2Proof.Machine
end

