-- ==== Sys2Proof/Machine/Ops.lean ====
section
/-! DEFINITION. The named operations over the unit's registers and over BUF, the outcomes of a command and their
commits (30_encoding.md R79–R81), and the strict failure (60_exceptions.md R262), the unit's form of taking an
exception. There is no return from one: the unit has no handler and no return command (R270). -/

namespace Sys2Proof.Machine

/-! ### BUF -/

/-- R51: the canonical form of BUF: the listed addresses rise strictly. -/
abbrev Memory.wf (m : Memory) : Prop := m.Pairwise (fun x y => x.1 < y.1)

/-- R51: the byte at an address; none if nothing has written it since reset. -/
def Memory.read : Memory → Nat → Option Byte
  | [], _ => none
  | (k, b) :: m, addr => if k = addr then some b else Memory.read m addr

/-- R52: BUF with one byte set. -/
def Memory.write : Memory → Nat → Byte → Memory
  | [], addr, b => [(addr, b)]
  | (k, x) :: m, addr, b =>
    if addr < k then (addr, b) :: (k, x) :: m
    else if addr = k then (addr, b) :: m
    else (k, x) :: Memory.write m addr b

/-- R53: the bytes BUF[addr], …, BUF[addr+n−1], or the first address among them that is unwritten (R12). -/
def Memory.readBytes (m : Memory) : Nat → Nat → Except Nat (List Byte)
  | _, 0 => .ok []
  | addr, n + 1 =>
    match m.read addr with
    | none => .error addr
    | some b =>
      match Memory.readBytes m (addr + 1) n with
      | .error x => .error x
      | .ok bs => .ok (b :: bs)

/-- R54: BUF with the bytes of a list written from `addr` upward. -/
def Memory.writeBytes (m : Memory) : Nat → List Byte → Memory
  | _, [] => m
  | addr, b :: bs => Memory.writeBytes (m.write addr b) (addr + 1) bs

/-- R10, R53: the value of a ByteString, its first byte the most significant. -/
def beValue : List Byte → Nat
  | [] => 0
  | b :: bs => b.toNat * 256 ^ bs.length + beValue bs

/-- R54: the `n` bytes of `v`, the most significant first, zero-padded on the left. -/
def beBytes (v : Nat) : Nat → List Byte
  | 0 => []
  | n + 1 => BitVec.ofNat 8 (v / 256 ^ n) :: beBytes v n

/-! ### Registers -/

/-- R20: the register at an index; indices 9 and above are unmapped (R58). -/
def RegName.ofIndex : Nat → Option RegName
  | 0 => some (.operand .A)
  | 1 => some (.operand .B)
  | 2 => some (.operand .C)
  | 3 => some (.operand .D)
  | 4 => some .cmd
  | 5 => some .hi
  | 6 => some .lo
  | 7 => some .status
  | 8 => some .cfg
  | _ => none

/-- R21–R24: the operand register of a name. -/
def State.operand (s : State) : OperandName → OperandReg
  | .A => s.a
  | .B => s.b
  | .C => s.c
  | .D => s.d

/-- R21–R24, R55: the host writes an operand register, which from then on is written. -/
def State.setOperand (s : State) (x : OperandName) (v : Word) : State :=
  match x with
  | .A => { s with a := { value := v, written := true } }
  | .B => { s with b := { value := v, written := true } }
  | .C => { s with c := { value := v, written := true } }
  | .D => { s with d := { value := v, written := true } }

/-- R32: CFG: WIDTH 256 in [15:0], BUFSIZE in [47:16], REV 1 in [63:48], IDENT "WWU-256" in [127:64], 0 above. -/
def cfgWord (bufBytes : Nat) : Word :=
  0#128 ++ 0x5757552D32353600#64 ++ 1#16 ++ BitVec.ofNat 32 bufBytes ++ 256#16

/-! ### Outcomes of a command and their commits -/

/-- R79, R260: the one outcome of an operation rule: success with the result pair and, for a byte-string
command, the BUF bytes to write (start address and bytes); a try failure; a strict failure; a model fault. -/
inductive OpOutcome where
  | success (r : WideWord) (write : Option (Nat × List Byte))
  | tryFail
  | raise (e : StrictError)
  | modelFault (f : ModelFault)
deriving DecidableEq, Repr

/-- R67: the BUF writes of a success commit. -/
def applyWrite (write : Option (Nat × List Byte)) (m : Memory) : Memory :=
  match write with
  | none => m
  | some (addr, bs) => m.writeBytes addr bs

/-- R80: the success commit. -/
def commitSuccess (r : WideWord) (write : Option (Nat × List Byte)) (s : State) : State :=
  flagsSuccess { s with hi := r.high, lo := r.low, buf := applyWrite write s.buf }

/-- R81: the try-failure commit: HI and LO get the placeholder 0, no BUF byte is written. -/
def commitTryFail (s : State) : State :=
  flagsTryFail { s with hi := 0, lo := 0 }

/-- R262, R267: the strict-failure commit, the one shared entry of every strict failure. It writes STATUS alone;
no control is transferred and nothing else is saved. -/
def strictFail (e : StrictError) (s : State) : State := flagsStrict e s

/-- R268, R269: a model fault is appended to `faults`; nothing else changes. -/
def recordFault (f : ModelFault) (s : State) : State := { s with faults := s.faults ++ [f] }

/-- R79: the commit of a command's outcome. -/
def commit (o : OpOutcome) (s : State) : State :=
  match o with
  | .success r write => commitSuccess r write s
  | .tryFail => commitTryFail s
  | .raise e => strictFail e s
  | .modelFault f => recordFault f s

/-- R290: the reset of the unit: registers and BUF as after power-on. The fault record, the host's own position
and program, BUF_BYTES and the number of draws are not the unit's to reset. -/
def applyReset (s : State) : State :=
  { State.resetWith s.bufBytes with
    faults := s.faults, hpc := s.hpc, pending := s.pending, draws := s.draws }

end Sys2Proof.Machine
end

