-- ==== Sys2Proof/Machine/Operands.lean ====
section
/-! DEFINITION. The operand forms of the commands: operand registers (30_encoding.md R77, 00_scope.md R12), the
RND field and the predicate roundsUp (30_encoding.md R72, 42_roots_logs.md R170), descriptors (30_encoding.md R78)
and the ByteStrings they name (20_memory.md R53). Each form hands the operand's value to the rest of the rule, or
ends the command in the failure or the model fault the spec gives. -/

namespace Sys2Proof.Machine

/-- R12 `rd(X)`: the Word of an operand register; the model fault `UninitOperand(X)` if it is unwritten (R269). -/
def withOperand (x : OperandName) (s : State) (k : Word → OpOutcome) : OpOutcome :=
  if (s.operand x).written then k (s.operand x).value else .modelFault (.uninitOperand x)

/-- R77: a command of one operand reads A. -/
def withA (s : State) (rule : Word → OpOutcome) : OpOutcome :=
  withOperand .A s rule

/-- R77: a command of two operands reads A, then B. -/
def withAB (s : State) (rule : Word → Word → OpOutcome) : OpOutcome :=
  withOperand .A s fun a => withOperand .B s fun b => rule a b

/-- R77: a command of three operands reads A, B, then C. -/
def withABC (s : State) (rule : Word → Word → Word → OpOutcome) : OpOutcome :=
  withOperand .A s fun a => withOperand .B s fun b => withOperand .C s fun c => rule a b c

/-- R77: a byte-string command reads A, B, C, then D. -/
def withABCD (s : State) (rule : Word → Word → Word → Word → OpOutcome) : OpOutcome :=
  withOperand .A s fun a => withOperand .B s fun b => withOperand .C s fun c =>
    withOperand .D s fun d => rule a b c d

/-- R72, R74: the Rounding of an RND field; a code 4–7 ends the command in DOMAIN, before any operand is read. -/
def withRounding (rnd : RndField) (k : Rounding → OpOutcome) : OpOutcome :=
  match rnd with
  | .mode r => k r
  | .reserved _ => .raise .domain

/-- R170: whether a rounding policy rounds a non-exact unsigned result up. -/
def roundsUp : Rounding → Bool
  | .floor => false
  | .ceil => true
  | .trunc => false
  | .expand => true

/-- R78: the ByteString (offset, length) an input descriptor names; none if the descriptor is not valid. -/
def inputDescriptor (bufBytes : Nat) (v : Word) : Option (Nat × Nat) :=
  let offset := (v.extractLsb' 0 32).toNat
  let length := (v.extractLsb' 32 32).toNat
  if v.extractLsb' 64 192 ≠ 0 ∨ offset + length > bufBytes then none else some (offset, length)

/-- R78: the offset an output descriptor names for a result of `n` bytes; none if the descriptor is not valid. -/
def outputDescriptor (bufBytes n : Nat) (v : Word) : Option Nat :=
  let offset := (v.extractLsb' 0 32).toNat
  if v.extractLsb' 32 224 ≠ 0 ∨ offset + n > bufBytes then none else some offset

/-- R78: an input descriptor that is not valid ends the command in BAD_DESCRIPTOR. -/
def withInput (bufBytes : Nat) (v : Word) (k : Nat → Nat → OpOutcome) : OpOutcome :=
  match inputDescriptor bufBytes v with
  | none => .raise .badDescriptor
  | some (offset, length) => k offset length

/-- R78: an output descriptor that is not valid ends the command in BAD_DESCRIPTOR. -/
def withOutput (bufBytes n : Nat) (v : Word) (k : Nat → OpOutcome) : OpOutcome :=
  match outputDescriptor bufBytes n v with
  | none => .raise .badDescriptor
  | some offset => k offset

/-- R12, R53 `MemRead(addr, n)`: the big-endian value of a range of BUF; the model fault `UninitBuffer` at the
first unwritten byte of the range (R269). -/
def withMem (m : Memory) (addr n : Nat) (k : Nat → OpOutcome) : OpOutcome :=
  match m.readBytes addr n with
  | .error x => .modelFault (.uninitBuffer x)
  | .ok bs => k (beValue bs)

end Sys2Proof.Machine
end

