-- ==== Sys2Proof/Machine/WideWord.lean ====
section
/-! DEFINITION. The WideWord and CheckedArithmetic commands (40_wideword.md). -/

namespace Sys2Proof.Machine

/-- R8, R100, R101: success with the exact double-width value `n`, `(n div 2^256, n mod 2^256)`. -/
def wideResult (n : Nat) : OpOutcome :=
  .success { high := word (n / 2 ^ 256), low := word (n % 2 ^ 256) } none

/-- D5, R26, R27: success with the single Word `n`: HI = 0, LO = n. -/
def wordResult (n : Nat) : OpOutcome := .success { high := 0, low := word n } none

/-- R102, R103, R132–R135: success with `n` if it fits in 256 bits, else the given outcome. -/
def fittingResult (overflow : OpOutcome) (n : Nat) : OpOutcome :=
  if n ≥ 2 ^ 256 then overflow else wordResult n

/-- R100 `ADD512`. -/
def execAdd512 (s : State) : Host.Outcome State Fault Refusal :=
  .next (commit (withAB s fun a b => wideResult (a.toNat + b.toNat)) s)

/-- R101 `MUL512`. -/
def execMul512 (s : State) : Host.Outcome State Fault Refusal :=
  .next (commit (withAB s fun a b => wideResult (a.toNat * b.toNat)) s)

/-- R102 `TRYADD`. -/
def execTryAdd (s : State) : Host.Outcome State Fault Refusal :=
  .next (commit (withAB s fun a b => fittingResult .tryFail (a.toNat + b.toNat)) s)

/-- R103 `TRYMUL`. -/
def execTryMul (s : State) : Host.Outcome State Fault Refusal :=
  .next (commit (withAB s fun a b => fittingResult .tryFail (a.toNat * b.toNat)) s)

end Sys2Proof.Machine
end

