-- ==== Sys2Proof/Machine/BitOps.lean ====
section
/-! DEFINITION. The BitOps command (43_bitops.md). -/

namespace Sys2Proof.Machine

/-- R210 `CLZ`. -/
def execClz (s : State) : Host.Outcome State Fault Refusal :=
  .next (commit (withA s fun x => wordResult (leadingZeros x.toNat)) s)

end Sys2Proof.Machine
end

