-- ==== Sys2Proof/Machine/Division.lean ====
section
/-! DEFINITION. The DivisionOps commands (41_division.md). A strict form and its try form share one rule and
differ in the outcome of each failure. -/

namespace Sys2Proof.Machine

/-- R130, R131: ⌈a / b⌉, with the given outcome for b = 0. -/
def ceilDivRule (zeroDivisor : OpOutcome) (a b : Word) : OpOutcome :=
  if b.toNat = 0 then zeroDivisor
  else wordResult (if a.toNat = 0 then 0 else (a.toNat - 1) / b.toNat + 1)

/-- R132–R135: x·y / d at double width, rounded up by one when `up` holds and the remainder is not 0, with the
given outcomes for d = 0 and for a rounded quotient that does not fit. -/
def mulDivRule (zeroDivisor overflow : OpOutcome) (up : Bool) (x y d : Word) : OpOutcome :=
  if d.toNat = 0 then zeroDivisor
  else
    let p := x.toNat * y.toNat
    let q := p / d.toNat
    fittingResult overflow (if up = true ∧ p % d.toNat ≠ 0 then q + 1 else q)

/-- R130 `CEILDIV`. -/
def execCeilDiv (s : State) : Host.Outcome State Fault Refusal :=
  .next (commit (withAB s (ceilDivRule (.raise .divisionByZero))) s)

/-- R131 `TRYCEILDIV`. -/
def execTryCeilDiv (s : State) : Host.Outcome State Fault Refusal :=
  .next (commit (withAB s (ceilDivRule .tryFail)) s)

/-- R132 `MULDIV`. -/
def execMulDiv (s : State) : Host.Outcome State Fault Refusal :=
  .next (commit (withABC s (mulDivRule (.raise .divisionByZero) (.raise .overflow) false)) s)

/-- R133 `TRYMULDIV`. -/
def execTryMulDiv (s : State) : Host.Outcome State Fault Refusal :=
  .next (commit (withABC s (mulDivRule .tryFail .tryFail false)) s)

/-- R134 `MULDIVR`. -/
def execMulDivR (rnd : RndField) (s : State) : Host.Outcome State Fault Refusal :=
  .next (commit (withRounding rnd fun r =>
    withABC s (mulDivRule (.raise .divisionByZero) (.raise .overflow) (roundsUp r))) s)

/-- R135 `TRYMULDIVR`. -/
def execTryMulDivR (rnd : RndField) (s : State) : Host.Outcome State Fault Refusal :=
  .next (commit (withRounding rnd fun r =>
    withABC s (mulDivRule .tryFail .tryFail (roundsUp r))) s)

end Sys2Proof.Machine
end

