-- ==== Sys2Proof/Machine/Modular.lean ====
section
/-! DEFINITION. The ModularArithmetic commands (44_modular.md). -/

namespace Sys2Proof.Machine

/-- R220: 0 for m ≤ 1 and when there is no inverse; else the inverse. -/
def invModRule (v m : Word) : OpOutcome :=
  if m.toNat ≤ 1 then wordResult 0
  else if Nat.gcd v.toNat m.toNat ≠ 1 then wordResult 0
  else wordResult (modInverse v.toNat m.toNat)

/-- R221, R222: (b^e) mod m, 0 for m = 1, with the given outcome for m = 0. -/
def modExpRule (zeroModulus : OpOutcome) (b e m : Word) : OpOutcome :=
  if m.toNat = 0 then zeroModulus
  else if m.toNat = 1 then wordResult 0
  else wordResult (powMod b.toNat e.toNat m.toNat)

/-- R224, R225, R67: the byte-string form: all descriptors are checked (A, B, C, D), all inputs are read, then
the result, of the modulus's length, is given to the commit; the given outcome for a modulus of value 0. -/
def modExpBRule (zeroModulus : OpOutcome) (bufBytes : Nat) (m : Memory) (dA dB dC dD : Word) : OpOutcome :=
  withInput bufBytes dA fun oB nB =>
  withInput bufBytes dB fun oE nE =>
  withInput bufBytes dC fun oM nM =>
  withOutput bufBytes nM dD fun oOut =>
  withMem m oB nB fun base =>
  withMem m oE nE fun exponent =>
  withMem m oM nM fun modulus =>
    if modulus = 0 then zeroModulus
    else .success { high := 0, low := word nM } (some (oOut, beBytes (powMod base exponent modulus) nM))

/-- R220 `INVMOD`. -/
def execInvMod (s : State) : Host.Outcome State Fault Refusal :=
  .next (commit (withAB s invModRule) s)

/-- R221 `MODEXP`. -/
def execModExp (s : State) : Host.Outcome State Fault Refusal :=
  .next (commit (withABC s (modExpRule (.raise .divisionByZero))) s)

/-- R222 `TRYMODEXP`. -/
def execTryModExp (s : State) : Host.Outcome State Fault Refusal :=
  .next (commit (withABC s (modExpRule .tryFail)) s)

/-- R224 `MODEXPB`. -/
def execModExpB (s : State) : Host.Outcome State Fault Refusal :=
  .next (commit (withABCD s (modExpBRule (.raise .divisionByZero) s.bufBytes s.buf)) s)

/-- R225 `TRYMODEXPB`. -/
def execTryModExpB (s : State) : Host.Outcome State Fault Refusal :=
  .next (commit (withABCD s (modExpBRule .tryFail s.bufBytes s.buf)) s)

end Sys2Proof.Machine
end

