-- ==== Sys2Proof/Machine/RootsLogs.lean ====
section
/-! DEFINITION. The RootsAndLogs commands and the Rounding predicate as a command (42_roots_logs.md). -/

namespace Sys2Proof.Machine

/-- R173: the floor root, plus one when the policy rounds up and the root is not exact. -/
def sqrtRule (r : Rounding) (n : Word) : OpOutcome :=
  let root := isqrt n.toNat
  wordResult (if roundsUp r = true ∧ root * root < n.toNat then root + 1 else root)

/-- R175–R177: 0 for n = 0; else the floor logarithm, plus one when the policy rounds up and it is not exact. -/
def logRule (base : Nat) (r : Rounding) (n : Word) : OpOutcome :=
  if n.toNat = 0 then wordResult 0
  else
    let e := flog base n.toNat
    wordResult (if roundsUp r = true ∧ base ^ e < n.toNat then e + 1 else e)

/-- R173 `SQRT`. -/
def execSqrt (rnd : RndField) (s : State) : Host.Outcome State Fault Refusal :=
  .next (commit (withRounding rnd fun r => withA s (sqrtRule r)) s)

/-- R175 `LOG2`. -/
def execLog2 (rnd : RndField) (s : State) : Host.Outcome State Fault Refusal :=
  .next (commit (withRounding rnd fun r => withA s (logRule 2 r)) s)

/-- R176 `LOG10`. -/
def execLog10 (rnd : RndField) (s : State) : Host.Outcome State Fault Refusal :=
  .next (commit (withRounding rnd fun r => withA s (logRule 10 r)) s)

/-- R177 `LOG256`. -/
def execLog256 (rnd : RndField) (s : State) : Host.Outcome State Fault Refusal :=
  .next (commit (withRounding rnd fun r => withA s (logRule 256 r)) s)

/-- R171 `ROUNDSUP`: reads no register. -/
def execRoundsUp (rnd : RndField) (s : State) : Host.Outcome State Fault Refusal :=
  .next (commit (withRounding rnd fun r => wordResult (if roundsUp r then 1 else 0)) s)

end Sys2Proof.Machine
end

