-- ==== Sys2Proof/Machine/Dispatch.lean ====
section
/-! DEFINITION. The dispatch of a decoded command to its meaning (30_encoding.md R75, R79). -/

namespace Sys2Proof.Machine

def exec (i : Instr) (s : State) : Host.Outcome State Fault Refusal :=
  match i with
  -- WideWord and CheckedArithmetic
  | .add512 => Sys2Proof.Machine.execAdd512 s
  | .mul512 => Sys2Proof.Machine.execMul512 s
  | .tryAdd => Sys2Proof.Machine.execTryAdd s
  | .tryMul => Sys2Proof.Machine.execTryMul s
  -- DivisionOps
  | .ceilDiv => Sys2Proof.Machine.execCeilDiv s
  | .tryCeilDiv => Sys2Proof.Machine.execTryCeilDiv s
  | .mulDiv => Sys2Proof.Machine.execMulDiv s
  | .tryMulDiv => Sys2Proof.Machine.execTryMulDiv s
  | .mulDivR rnd => Sys2Proof.Machine.execMulDivR rnd s
  | .tryMulDivR rnd => Sys2Proof.Machine.execTryMulDivR rnd s
  -- RootsAndLogs
  | .sqrt rnd => Sys2Proof.Machine.execSqrt rnd s
  | .log2 rnd => Sys2Proof.Machine.execLog2 rnd s
  | .log10 rnd => Sys2Proof.Machine.execLog10 rnd s
  | .log256 rnd => Sys2Proof.Machine.execLog256 rnd s
  | .roundsUp rnd => Sys2Proof.Machine.execRoundsUp rnd s
  -- BitOps
  | .clz => Sys2Proof.Machine.execClz s
  -- ModularArithmetic
  | .invMod => Sys2Proof.Machine.execInvMod s
  | .modExp => Sys2Proof.Machine.execModExp s
  | .tryModExp => Sys2Proof.Machine.execTryModExp s
  | .modExpB => Sys2Proof.Machine.execModExpB s
  | .tryModExpB => Sys2Proof.Machine.execTryModExpB s

end Sys2Proof.Machine
end

