-- ==== Sys2Proof/Machine/Port.lean ====
section
/-! DEFINITION. The host port: what each host transaction does (20_memory.md R52, R55, R58, R60), the command
cycle that a write to CMD starts (30_encoding.md R79), and how the unit takes the host's next transaction (R63). -/

namespace Sys2Proof.Machine

/-- R79 `Execute(v)`: CMD holds v, then the decoded command runs; an illegal word and a DOMAIN word end in their
strict failures without reading any operand (R76, R77). -/
def executeCommand (v : Word) (s : State) : Host.Outcome State Fault Refusal :=
  match decode v with
  | .illegal => .next (strictFail .illegalCommand { s with cmd := v })
  | .domain _ => .next (strictFail .domain { s with cmd := v })
  | .op i => exec i { s with cmd := v }

/-- R21, R32, R55, R60: what a read of a mapped register returns; a draw for an unwritten operand register. -/
def readRegister (r : RegName) (s : State) : Word :=
  match r with
  | .operand x => if (s.operand x).written then (s.operand x).value else Config.drawWord s.draws
  | .cmd => s.cmd
  | .hi => s.hi
  | .lo => s.lo
  | .status => statusWord s
  | .cfg => cfgWord s.bufBytes

/-- Whether a read of a mapped register is a draw (R21): only of an unwritten operand register. -/
def isDraw (r : RegName) (s : State) : Bool :=
  match r with
  | .operand x => !(s.operand x).written
  | .cmd | .hi | .lo | .status | .cfg => false

/-- R55, R58 `RegRead(i)`: returns the whole register and changes no state of the unit. -/
def hostRegRead (index : Nat) (s : State) : State :=
  match RegName.ofIndex index with
  | none => recordFault (.hostBusError .register index) s
  | some r =>
    { s with answer := .word (readRegister r s), draws := if isDraw r s then s.draws + 1 else s.draws }

/-- R25, R37, R55, R58 `RegWrite(i, v)`: an operand register is written, CMD executes, a read-only register is
left as it is. -/
def hostRegWrite (index : Nat) (v : Word) (s : State) : Host.Outcome State Fault Refusal :=
  match RegName.ofIndex index with
  | none => .next (recordFault (.hostBusError .register index) s)
  | some (.operand x) => .next (s.setOperand x v)
  | some .cmd => executeCommand v s
  | some .hi => .next s
  | some .lo => .next s
  | some .status => .next s
  | some .cfg => .next s

/-- R52, R58 `BufRead(addr)`: returns the byte, a draw if it is unwritten, and changes no state of the unit. -/
def hostBufRead (addr : Nat) (s : State) : State :=
  if addr < s.bufBytes then
    match s.buf.read addr with
    | some b => { s with answer := .byte b }
    | none => { s with answer := .byte (Config.drawByte s.draws), draws := s.draws + 1 }
  else recordFault (.hostBusError .buffer addr) s

/-- R52, R58 `BufWrite(addr, b)`. -/
def hostBufWrite (addr : Nat) (b : Byte) (s : State) : State :=
  if addr < s.bufBytes then { s with buf := s.buf.write addr b }
  else recordFault (.hostBusError .buffer addr) s

/-- R59, R60, R82: one whole host transaction. -/
def transact (t : HostTxn) (s : State) : Host.Outcome State Fault Refusal :=
  match t with
  | .regRead index => .next (hostRegRead index s)
  | .regWrite index v => hostRegWrite index v s
  | .bufRead addr => .next (hostBufRead addr s)
  | .bufWrite addr b => .next (hostBufWrite addr b s)
  | .reset => .next (applyReset s)

/-- R34, R63: the host's next transaction is taken off its program, and the host's index moves past it. -/
def accept (rest : List HostTxn) (s : State) : State :=
  { s with pending := rest, hpc := s.hpc + 1, answer := .none }

/-- R63, R291: the unit performs the host's next transaction; with none pending it is idle and holds its state
(R277). -/
def hostStep (s : State) : Host.Outcome State Fault Refusal :=
  match s.pending with
  | [] => .next s
  | t :: rest => transact t (accept rest s)

end Sys2Proof.Machine
end

