-- ==== Sys2Proof/Machine/Step.lean ====
section
/-! DEFINITION. One step of the machine: one host transaction, with the whole command if it is a CMD write
(20_memory.md R59, R63; 70_reset_and_hazards.md R295, R297). -/

namespace Sys2Proof.Machine

/-- R59, R297: one step. -/
def step (s : State) : Host.Outcome State Fault Refusal := hostStep s

/-- `s` with the host about to write the command word `w` (its low `nbits` bits) to CMD: the unit fetches nothing
(R34, R66), so a command comes to run as the host's next transaction, `RegWrite(4, w)` (R25). -/
def State.withFetchWord (s : State) (nbits w : Nat) : State :=
  { s with pending := .regWrite 4 (word (w % 2 ^ nbits)) :: s.pending }

end Sys2Proof.Machine
end

