-- ==== Sys2Proof/Machine/Assembler.lean ====
section
/-! DEFINITION. The host program notation and its assembler (30_encoding.md R82–R84): a program is a sequence of
lines, each of which stands for one host transaction; `cmd M[.S]` is the one pseudo-instruction. First what a line
stands for, then how a line and a program are read from their text. -/

namespace Sys2Proof.Machine

/-- R20, R82: the index of a register name. -/
def RegName.index : RegName → Nat
  | .operand .A => 0
  | .operand .B => 1
  | .operand .C => 2
  | .operand .D => 3
  | .cmd => 4
  | .hi => 5
  | .lo => 6
  | .status => 7
  | .cfg => 8

/-- R75: the mnemonic of each command. -/
def Op.mnemonic : Op → String
  | .add512 => "ADD512"
  | .mul512 => "MUL512"
  | .tryAdd => "TRYADD"
  | .tryMul => "TRYMUL"
  | .ceilDiv => "CEILDIV"
  | .tryCeilDiv => "TRYCEILDIV"
  | .mulDiv => "MULDIV"
  | .tryMulDiv => "TRYMULDIV"
  | .mulDivR => "MULDIVR"
  | .tryMulDivR => "TRYMULDIVR"
  | .sqrt => "SQRT"
  | .log2 => "LOG2"
  | .log10 => "LOG10"
  | .log256 => "LOG256"
  | .roundsUp => "ROUNDSUP"
  | .clz => "CLZ"
  | .invMod => "INVMOD"
  | .modExp => "MODEXP"
  | .tryModExp => "TRYMODEXP"
  | .modExpB => "MODEXPB"
  | .tryModExpB => "TRYMODEXPB"

/-- R72: the assembler suffix of each Rounding. -/
def roundingSuffix : Rounding → String
  | .floor => "FLOOR"
  | .ceil => "CEIL"
  | .trunc => "TRUNC"
  | .expand => "EXPAND"

/-- R82: the Rounding a suffix names. -/
def roundingOfSuffix (t : String) : Option Rounding :=
  [Rounding.floor, .ceil, .trunc, .expand].find? (fun r => roundingSuffix r == t)

/-- R83: the command `cmd M[.S]` stands for: a rounding command without a suffix takes Floor; an unknown mnemonic,
an unknown suffix, and a suffix on a command that has no Rounding are assembly errors. -/
def assembleCommand (mnemonic : String) (suffix : Option String) : Option Instr :=
  match Op.all.find? (fun o => Op.mnemonic o == mnemonic), suffix with
  | none, _ => none
  | some o, none => some (Instr.ofOp o (.mode .floor))
  | some o, some t =>
    match roundingOfSuffix t with
    | none => none
    | some r => if o.usesRnd then some (Instr.ofOp o (.mode r)) else none

/-- R82: one line of a host program. -/
inductive HostLine where
  | wr (r : RegName) (value : Nat)
  | rd (r : RegName)
  | wrb (addr byte : Nat)
  | rdb (addr : Nat)
  | cmd (mnemonic : String) (suffix : Option String)
  | reset
deriving DecidableEq, Repr

/-- R82–R84: the transaction of a line; none is an assembly error: a value outside [0, 2^256 − 1] (R82), a byte
outside [0, 255] (R52), or a refused `cmd` (R83). DESIGN CHOICE (notes/assumptions/12.md): R82's range is asked of the
value of `wr` only; the address of `wrb` and `rdb` is any natural number, and one outside BUF is a bus error when its
transaction is performed (R58). -/
def assembleLine : HostLine → Option HostTxn
  | .wr r value => if value < 2 ^ 256 then some (.regWrite r.index (word value)) else none
  | .rd r => some (.regRead r.index)
  | .wrb addr byte => if byte < 256 then some (.bufWrite addr (BitVec.ofNat 8 byte)) else none
  | .rdb addr => some (.bufRead addr)
  | .cmd mnemonic suffix =>
    match assembleCommand mnemonic suffix with
    | none => none
    | some i => some (.regWrite 4 (encode i))
  | .reset => some .reset

/-- R82, R83: the transactions of a program; an assembly error in any line emits nothing. -/
def assemble : List HostLine → Option (List HostTxn)
  | [] => some []
  | l :: ls =>
    match assembleLine l, assemble ls with
    | some t, some ts => some (t :: ts)
    | _, _ => none

/-! ### The text of a program -/

/-- Whether a character is part of a name or of a number. -/
def isNameChar (c : Char) : Bool := c.isAlphanum || c == '_'

/-- R82: the pieces of a line: names and numbers as maximal runs of name characters, every other character but
a blank on its own; a blank is an empty piece, which `pieces` drops. -/
def rawPieces : List Char → List (List Char)
  | [] => []
  | c :: cs =>
    if isNameChar c then
      match rawPieces cs with
      | (d :: ds) :: rest => if isNameChar d then (c :: d :: ds) :: rest else [c] :: (d :: ds) :: rest
      | rest => [c] :: rest
    else if c.isWhitespace then [] :: rawPieces cs
    else [c] :: rawPieces cs

/-- R82: the pieces of a line, without its `;` comment and its blanks. -/
def pieces (line : List Char) : List (List Char) :=
  (rawPieces (line.takeWhile (· != ';'))).filter (fun p => !p.isEmpty)

/-- The value of a digit in bases up to 16. -/
def digitValue (c : Char) : Option Nat :=
  if '0' ≤ c ∧ c ≤ '9' then some (c.toNat - '0'.toNat)
  else if 'a' ≤ c ∧ c ≤ 'f' then some (c.toNat - 'a'.toNat + 10)
  else if 'A' ≤ c ∧ c ≤ 'F' then some (c.toNat - 'A'.toNat + 10)
  else none

/-- The value of a run of digits of a base, read from the left onto `acc`. -/
def digitsValue (base : Nat) : Nat → List Char → Option Nat
  | acc, [] => some acc
  | acc, c :: cs =>
    match digitValue c with
    | none => none
    | some d => if d < base then digitsValue base (acc * base + d) cs else none

/-- R82: a decimal or `0x` hexadecimal number. -/
def numberValue : List Char → Option Nat
  | [] => none
  | ['0', 'x'] => none
  | '0' :: 'x' :: ds => digitsValue 16 0 ds
  | ds => digitsValue 10 0 ds

/- R82: constant expressions, evaluated exactly (over the integers). The spec shows the `2^k` style only; the
grammar around it (sums, differences, products, powers that group to the right, brackets) is a DESIGN CHOICE
(notes/assumptions/12.md). The first argument bounds the depth of the reading. -/
mutual

/-- A sum of products, read onto the value to its left. -/
def exprRest : Nat → Int → List (List Char) → Option (Int × List (List Char))
  | 0, _, _ => none
  | fuel + 1, acc, ['+'] :: ps =>
    match exprTerm fuel ps with
    | none => none
    | some (v, rest) => exprRest fuel (acc + v) rest
  | fuel + 1, acc, ['-'] :: ps =>
    match exprTerm fuel ps with
    | none => none
    | some (v, rest) => exprRest fuel (acc - v) rest
  | _ + 1, acc, ps => some (acc, ps)
termination_by structural fuel => fuel

/-- A product of powers. -/
def exprTerm : Nat → List (List Char) → Option (Int × List (List Char))
  | 0, _ => none
  | fuel + 1, ps =>
    match exprPower fuel ps with
    | none => none
    | some (v, ['*'] :: rest) =>
      match exprTerm fuel rest with
      | none => none
      | some (w, rest') => some (v * w, rest')
    | some (v, rest) => some (v, rest)
termination_by structural fuel => fuel

/-- A number or a bracketed expression, with the power it is raised to. -/
def exprPower : Nat → List (List Char) → Option (Int × List (List Char))
  | 0, _ => none
  | _ + 1, [] => none
  | fuel + 1, p :: ps =>
    let base : Option (Int × List (List Char)) :=
      if p = ['('] then
        match exprTerm fuel ps with
        | none => none
        | some (v, rest) =>
          match exprRest fuel v rest with
          | some (w, [')'] :: rest') => some (w, rest')
          | _ => none
      else (numberValue p).map (fun n => ((n : Int), ps))
    match base with
    | none => none
    | some (v, ['^'] :: rest) =>
      match exprPower fuel rest with
      | none => none
      | some (w, rest') => if w < 0 then none else some (v ^ w.toNat, rest')
    | some (v, rest) => some (v, rest)
termination_by structural fuel => fuel

end

/-- R82: the natural number a list of pieces spells, if it spells one. -/
def exprValue (ps : List (List Char)) : Option Nat :=
  let fuel := 4 * ps.length + 4
  match exprTerm fuel ps with
  | none => none
  | some (v, rest) =>
    match exprRest fuel v rest with
    | some (w, []) => if w < 0 then none else some w.toNat
    | _ => none

/-- R82: the register a name names. -/
def regOfName (p : List Char) : Option RegName :=
  [(['A'], RegName.operand .A), (['B'], .operand .B), (['C'], .operand .C), (['D'], .operand .D),
    (['C', 'M', 'D'], .cmd), (['H', 'I'], .hi), (['L', 'O'], .lo), (['S', 'T', 'A', 'T', 'U', 'S'], .status),
    (['C', 'F', 'G'], .cfg)].lookup p

/-- R82: one line of the text: `some none` for a line that holds nothing but blanks and a comment, none for a line
that is no transaction. -/
def parseLine (line : List Char) : Option (Option HostLine) :=
  match pieces line with
  | [] => some none
  | ['w', 'r'] :: r :: [','] :: value =>
    match regOfName r, exprValue value with
    | some r, some v => some (some (.wr r v))
    | _, _ => none
  | [['r', 'd'], r] => (regOfName r).map (fun r => some (.rd r))
  | ['w', 'r', 'b'] :: ps =>
    match exprValue (ps.takeWhile (· != [','])), exprValue ((ps.dropWhile (· != [','])).drop 1) with
    | some addr, some byte => some (some (.wrb addr byte))
    | _, _ => none
  | ['r', 'd', 'b'] :: addr => (exprValue addr).map (fun a => some (.rdb a))
  | [['c', 'm', 'd'], m] => some (some (.cmd (String.ofList m) none))
  | [['c', 'm', 'd'], m, ['.'], t] => some (some (.cmd (String.ofList m) (some (String.ofList t))))
  | [['r', 'e', 's', 'e', 't']] => some (some .reset)
  | _ => none

/-- R82: the lines of a program's text. -/
def parseLines : List (List Char) → Option (List HostLine)
  | [] => some []
  | l :: ls =>
    match parseLine l, parseLines ls with
    | some none, some rest => some rest
    | some (some h), some rest => some (h :: rest)
    | _, _ => none

/-- The lines of a text. -/
def textLines : List Char → List (List Char)
  | [] => [[]]
  | c :: cs =>
    if c = '\n' then [] :: textLines cs
    else
      match textLines cs with
      | [] => [[c]]
      | l :: ls => (c :: l) :: ls

/-- R82–R84: the transactions of a program's text; none if some line is an assembly error. -/
def assembleText (text : List Char) : Option (List HostTxn) :=
  match parseLines (textLines text) with
  | none => none
  | some ls => assemble ls

/-- R82: the host takes up a program after the transactions it still has to issue. -/
def State.load (s : State) (program : List HostTxn) : State := { s with pending := s.pending ++ program }

end Sys2Proof.Machine
end

