-- ==== Sys2Proof/Safety.lean ====
section
/-! DEFINITION. What counts as a good state and a good run of the WWU-256, in the terms claims use: no strict
failure happened (60_exceptions.md R263), no model fault happened (R268), and the invariant of the reachable
states. -/

namespace Sys2Proof.Machine

/-- R263: "no strict failure happened" is STATUS.STICKY = 0 at the end of a run. -/
def State.NoStrictFailure (s : State) : Prop := s.sticky = false

/-- R268: a faulted run is never a successful run. -/
def State.NoModelFault (s : State) : Prop := s.faults = []

/-- R263, R268: the state is the end of a run without a strict failure and without a model fault. -/
def State.CleanRun (s : State) : Prop := s.NoStrictFailure ∧ s.NoModelFault

/-- R21, R292: the host has written `v` to the operand register `x` since reset (and nothing since). -/
abbrev State.Holds (s : State) (x : OperandName) (v : Word) : Prop :=
  s.operand x = { value := v, written := true }

/-- R10, R53: the ByteString `bs` stands written in BUF from `offset` upward. -/
abbrev State.HoldsBytes (s : State) (offset : Nat) (bs : List Byte) : Prop :=
  ∀ i < bs.length, s.buf.read (offset + i) = bs[i]?

/-- What holds of every state a run from reset reaches. -/
structure State.Inv (s : State) : Prop where
  /-- BUF is in its canonical form. -/
  bufWf : s.buf.wf
  /-- R51: every written byte of BUF has an address below BUF_BYTES. -/
  bufInRange : ∀ c ∈ s.buf, c.1 < s.bufBytes
  /-- R6: the range of BUF_BYTES. -/
  bufBytesRange : 1 ≤ s.bufBytes ∧ s.bufBytes ≤ 2 ^ 32 - 1
  /-- R30: codes 6 and 7 are never written. -/
  errCode : s.err.toNat ≤ 5
  /-- R262, R31: a strict failure reported by ERR leaves OK = 0 and STICKY = 1. -/
  errReported : s.err ≠ 0 → s.ok = false ∧ s.sticky = true
  /-- R81, R290: with OK = 0 and ERR = NONE (a try failure, or nothing yet) HI and LO hold 0. -/
  placeholder : s.ok = false → s.err = 0 → s.hi = 0 ∧ s.lo = 0

end Sys2Proof.Machine
end

