-- ==== Sys2Proof/Certificates/Slice0/Obligations.lean ====
section
/-! DEFINITION. The statements for the provers. Each formalises rules of the spec; OBLIGATIONS.json names them. A
statement gives a command's whole next state as one record update of the state before, so that what is not
named in it is unchanged (every register, STATUS field, BUF byte and fault record: the frame). -/

open Sys2Proof Sys2Proof.Machine

/-! ### Terms of the statements -/

/-- R77: the operand registers a command reads, in its order. -/
def Sys2Proof.Machine.operandsRead : Instr → List OperandName
  | .add512 | .mul512 | .tryAdd | .tryMul | .ceilDiv | .tryCeilDiv | .invMod => [.A, .B]
  | .mulDiv | .tryMulDiv | .mulDivR _ | .tryMulDivR _ | .modExp | .tryModExp => [.A, .B, .C]
  | .sqrt _ | .log2 _ | .log10 _ | .log256 _ | .clz => [.A]
  | .roundsUp _ => []
  | .modExpB | .tryModExpB => [.A, .B, .C, .D]

/-- R10: the big-endian value of a byte string, read byte by byte from the most significant. -/
def Sys2Proof.Machine.bigEndian (bs : List Byte) : Nat := bs.foldl (fun acc b => acc * 256 + b.toNat) 0

/-- R78: the Word of an input descriptor of `length` bytes at `offset`. -/
def Sys2Proof.Machine.descriptor (offset length : Nat) : Word := word (offset + 2 ^ 32 * length)

/-- R72: the OP codes of the rounding commands. -/
def Sys2Proof.Machine.roundingOps : List Nat := [0x14, 0x15, 0x20, 0x21, 0x22, 0x23, 0x24]

/-- R75: the OP codes of all commands. -/
def Sys2Proof.Machine.assignedOps : List Nat :=
  [0x01, 0x02, 0x03, 0x04, 0x10, 0x11, 0x12, 0x13, 0x14, 0x15, 0x20, 0x21, 0x22, 0x23, 0x24, 0x30,
   0x40, 0x41, 0x42, 0x43, 0x44]

/-- R78: some descriptor among a, b, c (inputs) and d (the output, for c's length) has a reserved bit set or names a
range outside a BUF of `n` bytes. -/
def Sys2Proof.Machine.InvalidDescriptor (n : Nat) (a b c d : Word) : Prop :=
  (∃ v ∈ [a, b, c], v.toNat / 2 ^ 64 ≠ 0 ∨ n < v.toNat % 2 ^ 32 + v.toNat / 2 ^ 32 % 2 ^ 32) ∨
  d.toNat / 2 ^ 32 ≠ 0 ∨ n < d.toNat % 2 ^ 32 + c.toNat / 2 ^ 32 % 2 ^ 32

/-- R78, R224: base, exponent and modulus stand written in BUF where A, B and C name them, and D names a valid output range for m's length. -/
structure Sys2Proof.Machine.ByteOperands (s : State) (oB oE oM oOut : Nat) (base exponent modulus : List Byte) :
    Prop where
  descA : s.Holds .A (descriptor oB base.length)
  descB : s.Holds .B (descriptor oE exponent.length)
  descC : s.Holds .C (descriptor oM modulus.length)
  descD : s.Holds .D (word oOut)
  rangeA : oB + base.length ≤ s.bufBytes
  rangeB : oE + exponent.length ≤ s.bufBytes
  rangeC : oM + modulus.length ≤ s.bufBytes
  rangeD : oOut + modulus.length ≤ s.bufBytes
  bufBytes32 : s.bufBytes < 2 ^ 32
  bytesA : s.HoldsBytes oB base
  bytesB : s.HoldsBytes oE exponent
  bytesC : s.HoldsBytes oM modulus

/-! ### Encoding -/

/-- R74, R83: a word decodes to a command exactly when it is the encoding of that command and the command is
well formed, and to a DOMAIN failure exactly when it is the encoding of a command with a reserved RND code. -/
def Obligations.DecodeIsExactlyEncode : Prop :=
  (∀ (v : Word) (i : Instr), decode v = .op i ↔ i.wellFormed = true ∧ v = encode i) ∧
  (∀ (v : Word) (i : Instr), decode v = .domain i ↔ i.wellFormed = false ∧ v = encode i)

/-- R76: which words are illegal, and what an illegal word written to CMD does: ILLEGAL_COMMAND, nothing read. -/
def Obligations.IllegalWordsEndInIllegalCommand : Prop :=
  ∀ (v : Word),
    (decode v = .illegal ↔
      v.toNat % 256 ∉ assignedOps ∨ v.toNat / 2 ^ 11 ≠ 0 ∨
        (v.toNat % 256 ∉ roundingOps ∧ v.toNat / 2 ^ 8 % 8 ≠ 0)) ∧
    (decode v = .illegal → ∀ s : State,
      executeCommand v s = .next { s with cmd := v, ok := false, err := 4, sticky := true })

/-- R261: a rounding command whose RND is 4 to 7 ends in DOMAIN, in every state, whatever is written. -/
def Obligations.ReservedRndEndsInDomain : Prop :=
  ∀ (v : Word) (s : State), v.toNat / 2 ^ 11 = 0 → v.toNat % 256 ∈ roundingOps → 4 ≤ v.toNat / 2 ^ 8 % 8 →
    executeCommand v s = .next { s with cmd := v, ok := false, err := 3, sticky := true }

/-- R83: the command word is `OP(M) + 256 · RND`, and every code is the one the table gives. -/
def Obligations.CommandWordIsOpPlus256Rnd : Prop :=
  ∀ i : Instr, (encode i).toNat = i.op.code.toNat + 256 * i.rndCode.toNat ∧ i.op.code.toNat ∈ assignedOps ∧
    (i.op.code.toNat ∉ roundingOps → i.rndCode = 0)

/-- R75, R84: words written out from the spec decode to their commands. -/
def Obligations.SpecWordsDecode : Prop :=
  decode 0x0001 = .op .add512 ∧ decode 0x0012 = .op .mulDiv ∧ decode 0x0114 = .op (.mulDivR (.mode .ceil)) ∧
  decode 0x0120 = .op (.sqrt (.mode .ceil)) ∧ decode 0x0022 = .op (.log10 (.mode .floor)) ∧
  decode 0x0030 = .op .clz ∧ decode 0x0043 = .op .modExpB ∧ decode 0 = .illegal

/-- R83: what the assembler accepts is well formed, so it decodes to itself: no illegal word and no DOMAIN word
comes out of `cmd`. -/
def Obligations.AssemblerEmitsOnlyLegalWords : Prop :=
  ∀ (m : String) (suffix : Option String) (i : Instr), assembleCommand m suffix = some i →
    decode (encode i) = .op i

/-! ### The step and the host port -/

/-- R79, R25: when the host's next transaction writes a word v to CMD, the step is `Execute(v)` on the state with the
transaction taken: an illegal word and a DOMAIN word end in their strict failures, and a word that decodes to a command
is that command's meaning, on the state with the word in CMD. The fields `pending`, `hpc` and `answer` are the
host's side of the port (notes/assumptions/6.md, 7.md). -/
def Obligations.StepRunsDecodedCommand : Prop :=
  ∀ (s : State) (v : Word) (rest : List HostTxn), s.pending = .regWrite 4 v :: rest →
    step s = executeCommand v { s with pending := rest, hpc := s.hpc + 1, answer := .none } ∧
    (decode v = .illegal → step s = .next { s with
      pending := rest, hpc := s.hpc + 1, answer := .none, cmd := v, ok := false, err := 4, sticky := true }) ∧
    (∀ i, decode v = .domain i → i.wellFormed = false ∧ step s = .next { s with
      pending := rest, hpc := s.hpc + 1, answer := .none, cmd := v, ok := false, err := 3, sticky := true }) ∧
    (∀ i, decode v = .op i → i.wellFormed = true ∧
      step s = exec i { s with pending := rest, hpc := s.hpc + 1, answer := .none, cmd := v })

/-- R277, R291: with no transaction pending the unit holds its registers and BUF. That the host's side, the fault
record and the number of draws are held too is the model's choice (notes/assumptions/4.md, 6.md, 7.md). -/
def Obligations.IdleUnitHoldsItsState : Prop :=
  ∀ s : State, s.pending = [] → step s = .next s

/-- R20, R28, R32, R55: a read of a mapped register returns the whole register and changes nothing of the unit. -/
def Obligations.RegReadReturnsWholeRegister : Prop :=
  ∀ (s : State) (rest : List HostTxn) (index : Nat), s.pending = .regRead index :: rest →
    (∀ x v, [OperandName.A, .B, .C, .D][index]? = some x → s.Holds x v →
      step s = .next { s with pending := rest, hpc := s.hpc + 1, answer := .word v }) ∧
    (index = 4 → step s = .next { s with pending := rest, hpc := s.hpc + 1, answer := .word s.cmd }) ∧
    (index = 5 → step s = .next { s with pending := rest, hpc := s.hpc + 1, answer := .word s.hi }) ∧
    (index = 6 → step s = .next { s with pending := rest, hpc := s.hpc + 1, answer := .word s.lo }) ∧
    (index = 7 → step s = .next { s with
      pending := rest, hpc := s.hpc + 1,
      answer := .word (word (s.ok.toNat + 2 * s.err.toNat + 16 * s.sticky.toNat)) }) ∧
    (index = 8 → s.bufBytes < 2 ^ 32 → step s = .next { s with
      pending := rest, hpc := s.hpc + 1,
      answer := .word (word (256 + 2 ^ 16 * s.bufBytes + 2 ^ 48 * 1 + 2 ^ 64 * 0x5757552D32353600)) })

/-- R21, D32: a read of an unwritten operand register returns some Word and changes nothing of the unit. The
number of draws is the model's own (notes/assumptions/4.md). -/
def Obligations.UnwrittenOperandReadIsADraw : Prop :=
  ∀ (s : State) (rest : List HostTxn) (index : Nat) (x : OperandName), s.pending = .regRead index :: rest →
    [OperandName.A, .B, .C, .D][index]? = some x → (s.operand x).written = false →
    ∃ v : Word, step s = .next { s with
      pending := rest, hpc := s.hpc + 1, answer := .word v, draws := s.draws + 1 }

/-- R21–R24, R60: a write of an operand register stores its value and does nothing else. -/
def Obligations.RegWriteStoresOperand : Prop :=
  ∀ (s : State) (rest : List HostTxn) (v : Word),
    (s.pending = .regWrite 0 v :: rest → step s = .next { s with
      pending := rest, hpc := s.hpc + 1, answer := .none, a := { value := v, written := true } }) ∧
    (s.pending = .regWrite 1 v :: rest → step s = .next { s with
      pending := rest, hpc := s.hpc + 1, answer := .none, b := { value := v, written := true } }) ∧
    (s.pending = .regWrite 2 v :: rest → step s = .next { s with
      pending := rest, hpc := s.hpc + 1, answer := .none, c := { value := v, written := true } }) ∧
    (s.pending = .regWrite 3 v :: rest → step s = .next { s with
      pending := rest, hpc := s.hpc + 1, answer := .none, d := { value := v, written := true } })

/-- R37: a host write to HI, LO, STATUS or CFG changes nothing and executes nothing (what the port then answers is
left open). -/
def Obligations.WritesToReadOnlyRegistersAreIgnored : Prop :=
  ∀ (s : State) (rest : List HostTxn) (index : Nat) (v : Word), s.pending = .regWrite index v :: rest →
    5 ≤ index → index ≤ 8 →
    ∃ ans : HostAnswer, step s = .next { s with pending := rest, hpc := s.hpc + 1, answer := ans }

/-- R52: a buffer write sets its byte and leaves every other address and every register as it was. -/
def Obligations.BufWriteSetsOneByte : Prop :=
  ∀ (s : State) (rest : List HostTxn) (addr : Nat) (b : Byte), s.pending = .bufWrite addr b :: rest →
    addr < s.bufBytes →
    ∃ m : Memory, step s = .next { s with pending := rest, hpc := s.hpc + 1, answer := .none, buf := m } ∧
      m.read addr = some b ∧ ∀ addr', addr' ≠ addr → m.read addr' = s.buf.read addr'

/-- R52: a buffer read returns the byte, an arbitrary one if it is unwritten, and changes nothing of the unit. -/
def Obligations.BufReadReturnsByte : Prop :=
  ∀ (s : State) (rest : List HostTxn) (addr : Nat), s.pending = .bufRead addr :: rest → addr < s.bufBytes →
    (∀ b, s.buf.read addr = some b →
      step s = .next { s with pending := rest, hpc := s.hpc + 1, answer := .byte b }) ∧
    (s.buf.read addr = none → ∃ b : Byte, step s = .next { s with
      pending := rest, hpc := s.hpc + 1, answer := .byte b, draws := s.draws + 1 })

/-- R58, R268: an access out of range changes no state of the unit and is recorded (what the port answers is left
open, 93 I7). -/
def Obligations.OutOfRangeAccessIsRecorded : Prop :=
  ∀ (s : State) (rest : List HostTxn) (t : HostTxn) (space : Space) (n : Nat), s.pending = t :: rest →
    (space = .register ∧ 9 ≤ n ∧ (t = .regRead n ∨ ∃ v, t = .regWrite n v) ∨
      space = .buffer ∧ s.bufBytes ≤ n ∧ (t = .bufRead n ∨ ∃ b, t = .bufWrite n b)) →
    ∃ ans : HostAnswer, step s = .next { s with
      pending := rest, hpc := s.hpc + 1, answer := ans,
      faults := s.faults ++ [.hostBusError space n] }

/-- R290: the host's reset sets every register to its reset value, unwrites BUF, executes no command, and keeps
the recorded faults. The Word an unwritten operand register holds is left open (notes/assumptions/2.md). -/
def Obligations.ResetTransactionResetsTheUnit : Prop :=
  ∀ (s : State) (rest : List HostTxn), s.pending = .reset :: rest →
    ∃ u : Word, step s = .next { s with
      a := { value := u, written := false }, b := { value := u, written := false },
      c := { value := u, written := false }, d := { value := u, written := false },
      cmd := 0, hi := 0, lo := 0, ok := false, err := 0, sticky := false, buf := [],
      pending := rest, hpc := s.hpc + 1, answer := .none }

/-- R20, R51, R290, R291: what power-on reset leaves. -/
def Obligations.PowerOnResetState : Prop :=
  State.reset.a.written = false ∧ State.reset.b.written = false ∧ State.reset.c.written = false ∧
  State.reset.d.written = false ∧ State.reset.cmd = 0 ∧ State.reset.hi = 0 ∧ State.reset.lo = 0 ∧
  statusWord State.reset = 0 ∧ (∀ addr, State.reset.buf.read addr = none) ∧ State.reset.faults = [] ∧
  1 ≤ State.reset.bufBytes ∧ State.reset.bufBytes ≤ 2 ^ 32 - 1

/-! ### WideWord and CheckedArithmetic -/

/-- R100. -/
def Obligations.Add512GivesExactSum : Prop :=
  decode 0x0001 = .op .add512 ∧
  ∀ (s : State) (a b : Word), s.Holds .A a → s.Holds .B b →
    ∃ hi lo : Word, exec .add512 s = .next { s with hi := hi, lo := lo, ok := true, err := 0 } ∧
      hi.toNat * 2 ^ 256 + lo.toNat = a.toNat + b.toNat ∧ hi.toNat ≤ 1

/-- R101. -/
def Obligations.Mul512GivesExactProduct : Prop :=
  decode 0x0002 = .op .mul512 ∧
  ∀ (s : State) (a b : Word), s.Holds .A a → s.Holds .B b →
    ∃ hi lo : Word, exec .mul512 s = .next { s with hi := hi, lo := lo, ok := true, err := 0 } ∧
      hi.toNat * 2 ^ 256 + lo.toNat = a.toNat * b.toNat ∧ hi.toNat ≤ 2 ^ 256 - 2

/-- R102. -/
def Obligations.TryAddGivesSumOrFails : Prop :=
  decode 0x0003 = .op .tryAdd ∧
  ∀ (s : State) (a b : Word), s.Holds .A a → s.Holds .B b →
    (a.toNat + b.toNat < 2 ^ 256 → ∃ r : Word, r.toNat = a.toNat + b.toNat ∧
      exec .tryAdd s = .next { s with hi := 0, lo := r, ok := true, err := 0 }) ∧
    (2 ^ 256 ≤ a.toNat + b.toNat →
      exec .tryAdd s = .next { s with hi := 0, lo := 0, ok := false, err := 0 })

/-- R103. -/
def Obligations.TryMulGivesProductOrFails : Prop :=
  decode 0x0004 = .op .tryMul ∧
  ∀ (s : State) (a b : Word), s.Holds .A a → s.Holds .B b →
    (a.toNat * b.toNat < 2 ^ 256 → ∃ r : Word, r.toNat = a.toNat * b.toNat ∧
      exec .tryMul s = .next { s with hi := 0, lo := r, ok := true, err := 0 }) ∧
    (2 ^ 256 ≤ a.toNat * b.toNat →
      exec .tryMul s = .next { s with hi := 0, lo := 0, ok := false, err := 0 })

/-- R104: ADD512 and TRYADD agree on every pair of written operands. -/
def Obligations.Add512AndTryAddAgree : Prop :=
  ∀ (s : State) (a b : Word), s.Holds .A a → s.Holds .B b →
    ∃ t u : State, exec .add512 s = .next t ∧ exec .tryAdd s = .next u ∧
      (u.ok = false ↔ t.hi ≠ 0) ∧ (u.ok = false ↔ t.hi = 1) ∧ (u.ok = true → u.lo = t.lo) ∧ t.lo = a + b

/-- R105: MUL512 and TRYMUL agree, and HI·2^256 + LO is the product formed from four half-width products. -/
def Obligations.Mul512AndTryMulAgree : Prop :=
  ∀ (s : State) (a b : Word), s.Holds .A a → s.Holds .B b →
    ∃ t u : State, exec .mul512 s = .next t ∧ exec .tryMul s = .next u ∧
      (u.ok = false ↔ t.hi ≠ 0) ∧ (u.ok = true → u.lo = t.lo) ∧ t.lo = a * b ∧
      (let aH := (a >>> 128).toNat; let aL := (a.setWidth 128).toNat
       let bH := (b >>> 128).toNat; let bL := (b.setWidth 128).toNat
       t.hi.toNat * 2 ^ 256 + t.lo.toNat = aH * bH * 2 ^ 256 + (aH * bL + aL * bH) * 2 ^ 128 + aL * bL)

/-! ### DivisionOps -/

/-- R130, R138. -/
def Obligations.CeilDivGivesCeilingOrFails : Prop :=
  decode 0x0010 = .op .ceilDiv ∧
  ∀ (s : State) (a b : Word), s.Holds .A a → s.Holds .B b →
    (b = 0 → exec .ceilDiv s = .next { s with ok := false, err := 1, sticky := true }) ∧
    (b ≠ 0 → ∃ r : Word, exec .ceilDiv s = .next { s with hi := 0, lo := r, ok := true, err := 0 } ∧
      a.toNat ≤ r.toNat * b.toNat ∧ (r ≠ 0 → (r.toNat - 1) * b.toNat < a.toNat) ∧ (r = 0 ↔ a = 0))

/-- R131. -/
def Obligations.TryCeilDivGivesCeilingOrTryFails : Prop :=
  decode 0x0011 = .op .tryCeilDiv ∧
  ∀ (s : State) (a b : Word), s.Holds .A a → s.Holds .B b →
    (b = 0 → exec .tryCeilDiv s = .next { s with hi := 0, lo := 0, ok := false, err := 0 }) ∧
    (b ≠ 0 → ∃ r : Word, exec .tryCeilDiv s = .next { s with hi := 0, lo := r, ok := true, err := 0 } ∧
      a.toNat ≤ r.toNat * b.toNat ∧ (r ≠ 0 → (r.toNat - 1) * b.toNat < a.toNat) ∧ (r = 0 ↔ a = 0))

/-- R132: the quotient satisfies the division identity at double width (R137). -/
def Obligations.MulDivGivesQuotientOrFails : Prop :=
  decode 0x0012 = .op .mulDiv ∧
  ∀ (s : State) (x y d : Word), s.Holds .A x → s.Holds .B y → s.Holds .C d →
    (d = 0 → exec .mulDiv s = .next { s with ok := false, err := 1, sticky := true }) ∧
    (d ≠ 0 → 2 ^ 256 ≤ x.toNat * y.toNat / d.toNat →
      exec .mulDiv s = .next { s with ok := false, err := 2, sticky := true }) ∧
    (d ≠ 0 → x.toNat * y.toNat / d.toNat < 2 ^ 256 →
      ∃ q : Word, exec .mulDiv s = .next { s with hi := 0, lo := q, ok := true, err := 0 } ∧
        x.toNat * y.toNat = q.toNat * d.toNat + x.toNat * y.toNat % d.toNat)

/-- R133. -/
def Obligations.TryMulDivGivesQuotientOrTryFails : Prop :=
  decode 0x0013 = .op .tryMulDiv ∧
  ∀ (s : State) (x y d : Word), s.Holds .A x → s.Holds .B y → s.Holds .C d →
    (d = 0 ∨ 2 ^ 256 ≤ x.toNat * y.toNat / d.toNat →
      exec .tryMulDiv s = .next { s with hi := 0, lo := 0, ok := false, err := 0 }) ∧
    (d ≠ 0 → x.toNat * y.toNat / d.toNat < 2 ^ 256 →
      ∃ q : Word, exec .tryMulDiv s = .next { s with hi := 0, lo := q, ok := true, err := 0 } ∧
        x.toNat * y.toNat = q.toNat * d.toNat + x.toNat * y.toNat % d.toNat)

/-- R134: Floor and Trunc give the floor of x·y/d, Ceil and Expand its ceiling; OVERFLOW is judged after
rounding. -/
def Obligations.MulDivRRoundsThenChecks : Prop :=
  decode 0x0014 = .op (.mulDivR (.mode .floor)) ∧ decode 0x0114 = .op (.mulDivR (.mode .ceil)) ∧
  decode 0x0214 = .op (.mulDivR (.mode .trunc)) ∧ decode 0x0314 = .op (.mulDivR (.mode .expand)) ∧
  (∀ (s : State) (k : Fin 4),
    exec (.mulDivR (.reserved k)) s = .next { s with ok := false, err := 3, sticky := true }) ∧
  ∀ (s : State) (r : Rounding) (x y d : Word), s.Holds .A x → s.Holds .B y → s.Holds .C d →
    (d = 0 → exec (.mulDivR (.mode r)) s = .next { s with ok := false, err := 1, sticky := true }) ∧
    (d ≠ 0 → ∃ q : Nat,
      (if r = .floor ∨ r = .trunc then
        q * d.toNat ≤ x.toNat * y.toNat ∧ x.toNat * y.toNat < (q + 1) * d.toNat
       else
        x.toNat * y.toNat ≤ q * d.toNat ∧ (q ≠ 0 → (q - 1) * d.toNat < x.toNat * y.toNat)) ∧
      (q < 2 ^ 256 →
        exec (.mulDivR (.mode r)) s = .next { s with hi := 0, lo := word q, ok := true, err := 0 }) ∧
      (2 ^ 256 ≤ q →
        exec (.mulDivR (.mode r)) s = .next { s with ok := false, err := 2, sticky := true }))

/-- R135. -/
def Obligations.TryMulDivRRoundsThenChecks : Prop :=
  decode 0x0015 = .op (.tryMulDivR (.mode .floor)) ∧ decode 0x0115 = .op (.tryMulDivR (.mode .ceil)) ∧
  decode 0x0215 = .op (.tryMulDivR (.mode .trunc)) ∧ decode 0x0315 = .op (.tryMulDivR (.mode .expand)) ∧
  (∀ (s : State) (k : Fin 4),
    exec (.tryMulDivR (.reserved k)) s = .next { s with ok := false, err := 3, sticky := true }) ∧
  ∀ (s : State) (r : Rounding) (x y d : Word), s.Holds .A x → s.Holds .B y → s.Holds .C d →
    (d = 0 → exec (.tryMulDivR (.mode r)) s = .next { s with hi := 0, lo := 0, ok := false, err := 0 }) ∧
    (d ≠ 0 → ∃ q : Nat,
      (if r = .floor ∨ r = .trunc then
        q * d.toNat ≤ x.toNat * y.toNat ∧ x.toNat * y.toNat < (q + 1) * d.toNat
       else
        x.toNat * y.toNat ≤ q * d.toNat ∧ (q ≠ 0 → (q - 1) * d.toNat < x.toNat * y.toNat)) ∧
      (q < 2 ^ 256 →
        exec (.tryMulDivR (.mode r)) s = .next { s with hi := 0, lo := word q, ok := true, err := 0 }) ∧
      (2 ^ 256 ≤ q →
        exec (.tryMulDivR (.mode r)) s = .next { s with hi := 0, lo := 0, ok := false, err := 0 }))

/-- R136: for d > 0 the quotient reaches 2^256, and MULDIV ends in OVERFLOW, exactly when the HI of MUL512 on the
same x, y is at least d. -/
def Obligations.MulDivOverflowsExactlyWhenHighReachesDivisor : Prop :=
  ∀ (s : State) (x y d : Word), s.Holds .A x → s.Holds .B y → s.Holds .C d → d ≠ 0 →
    ∃ t u : State, exec .mul512 s = .next t ∧ exec .mulDiv s = .next u ∧
      (2 ^ 256 ≤ x.toNat * y.toNat / d.toNat ↔ d.toNat ≤ t.hi.toNat) ∧
      (u.err = 2 ↔ d.toNat ≤ t.hi.toNat) ∧ (u.ok = true ↔ t.hi.toNat < d.toNat)

/-- R137: whenever a multiply-divide succeeds, rounding down satisfies the division identity at double width, and
rounding up brackets the product from above. -/
def Obligations.DivisionIdentityHoldsOnEverySuccess : Prop :=
  ∀ (s : State) (x y d : Word), s.Holds .A x → s.Holds .B y → s.Holds .C d →
    (∀ (i : Instr) (t : State), i ∈ [Instr.mulDiv, .tryMulDiv, .mulDivR (.mode .floor), .mulDivR (.mode .trunc),
        .tryMulDivR (.mode .floor), .tryMulDivR (.mode .trunc)] → exec i s = .next t → t.ok = true →
      x.toNat * y.toNat = t.lo.toNat * d.toNat + x.toNat * y.toNat % d.toNat) ∧
    (∀ (i : Instr) (t : State), i ∈ [Instr.mulDivR (.mode .ceil), .mulDivR (.mode .expand),
        .tryMulDivR (.mode .ceil), .tryMulDivR (.mode .expand)] → exec i s = .next t → t.ok = true →
      x.toNat * y.toNat ≤ t.lo.toNat * d.toNat ∧
      (0 < x.toNat * y.toNat → (t.lo.toNat - 1) * d.toNat < x.toNat * y.toNat))

/-- R138: CEILDIV brackets the quotient, and on (a, b) it equals MULDIVR.CEIL on (a, 1, b), the failure for b = 0
included. -/
def Obligations.CeilDivIsMulDivRCeilByOne : Prop :=
  ∀ (s u : State) (a b : Word), s.Holds .A a → s.Holds .B b →
    u = { s with b := { value := 1, written := true }, c := { value := b, written := true } } →
    ∃ t : State, exec .ceilDiv s = .next t ∧
      exec (.mulDivR (.mode .ceil)) u = .next { t with b := u.b, c := u.c } ∧
      (b ≠ 0 → t.ok = true ∧ a.toNat ≤ t.lo.toNat * b.toNat ∧
        (t.lo ≠ 0 → (t.lo.toNat - 1) * b.toNat < a.toNat) ∧ (t.lo = 0 ↔ a = 0))

/-! ### RootsAndLogs -/

/-- R173. -/
def Obligations.SqrtGivesRoundedRoot : Prop :=
  decode 0x0020 = .op (.sqrt (.mode .floor)) ∧ decode 0x0120 = .op (.sqrt (.mode .ceil)) ∧
  decode 0x0220 = .op (.sqrt (.mode .trunc)) ∧ decode 0x0320 = .op (.sqrt (.mode .expand)) ∧
  (∀ (s : State) (k : Fin 4),
    exec (.sqrt (.reserved k)) s = .next { s with ok := false, err := 3, sticky := true }) ∧
  ∀ (s : State) (r : Rounding) (n : Word), s.Holds .A n →
    ∃ root : Word, exec (.sqrt (.mode r)) s = .next { s with hi := 0, lo := root, ok := true, err := 0 } ∧
      (if r = .floor ∨ r = .trunc then root.toNat ^ 2 ≤ n.toNat ∧ n.toNat < (root.toNat + 1) ^ 2
       else n.toNat ≤ root.toNat ^ 2 ∧ (root = 0 ∨ (root.toNat - 1) ^ 2 < n.toNat))

/-- R175. -/
def Obligations.Log2GivesRoundedLog : Prop :=
  decode 0x0021 = .op (.log2 (.mode .floor)) ∧ decode 0x0121 = .op (.log2 (.mode .ceil)) ∧
  decode 0x0221 = .op (.log2 (.mode .trunc)) ∧ decode 0x0321 = .op (.log2 (.mode .expand)) ∧
  (∀ (s : State) (k : Fin 4),
    exec (.log2 (.reserved k)) s = .next { s with ok := false, err := 3, sticky := true }) ∧
  ∀ (s : State) (r : Rounding) (n : Word), s.Holds .A n →
    ∃ e : Word, exec (.log2 (.mode r)) s = .next { s with hi := 0, lo := e, ok := true, err := 0 } ∧
      (n = 0 → e = 0) ∧
      (n ≠ 0 → if r = .floor ∨ r = .trunc then 2 ^ e.toNat ≤ n.toNat ∧ n.toNat < 2 ^ (e.toNat + 1)
        else n.toNat ≤ 2 ^ e.toNat ∧ (e = 0 ∨ 2 ^ (e.toNat - 1) < n.toNat))

/-- R176. -/
def Obligations.Log10GivesRoundedLog : Prop :=
  decode 0x0022 = .op (.log10 (.mode .floor)) ∧ decode 0x0122 = .op (.log10 (.mode .ceil)) ∧
  decode 0x0222 = .op (.log10 (.mode .trunc)) ∧ decode 0x0322 = .op (.log10 (.mode .expand)) ∧
  (∀ (s : State) (k : Fin 4),
    exec (.log10 (.reserved k)) s = .next { s with ok := false, err := 3, sticky := true }) ∧
  ∀ (s : State) (r : Rounding) (n : Word), s.Holds .A n →
    ∃ e : Word, exec (.log10 (.mode r)) s = .next { s with hi := 0, lo := e, ok := true, err := 0 } ∧
      (n = 0 → e = 0) ∧
      (n ≠ 0 → if r = .floor ∨ r = .trunc then 10 ^ e.toNat ≤ n.toNat ∧ n.toNat < 10 ^ (e.toNat + 1)
        else n.toNat ≤ 10 ^ e.toNat ∧ (e = 0 ∨ 10 ^ (e.toNat - 1) < n.toNat))

/-- R177. -/
def Obligations.Log256GivesRoundedLog : Prop :=
  decode 0x0023 = .op (.log256 (.mode .floor)) ∧ decode 0x0123 = .op (.log256 (.mode .ceil)) ∧
  decode 0x0223 = .op (.log256 (.mode .trunc)) ∧ decode 0x0323 = .op (.log256 (.mode .expand)) ∧
  (∀ (s : State) (k : Fin 4),
    exec (.log256 (.reserved k)) s = .next { s with ok := false, err := 3, sticky := true }) ∧
  ∀ (s : State) (r : Rounding) (n : Word), s.Holds .A n →
    ∃ e : Word, exec (.log256 (.mode r)) s = .next { s with hi := 0, lo := e, ok := true, err := 0 } ∧
      (n = 0 → e = 0) ∧
      (n ≠ 0 → if r = .floor ∨ r = .trunc then 256 ^ e.toNat ≤ n.toNat ∧ n.toNat < 256 ^ (e.toNat + 1)
        else n.toNat ≤ 256 ^ e.toNat ∧ (e = 0 ∨ 256 ^ (e.toNat - 1) < n.toNat))

/-- R178: the results reach 256, 78 and 32 with Ceil and Expand, and never exceed them. -/
def Obligations.LogResultsReachTheirBounds : Prop :=
  ∀ (s t : State) (r : Rounding) (n : Word), s.Holds .A n →
    (exec (.log2 (.mode r)) s = .next t → t.lo.toNat ≤ 256) ∧
    (exec (.log10 (.mode r)) s = .next t → t.lo.toNat ≤ 78) ∧
    (exec (.log256 (.mode r)) s = .next t → t.lo.toNat ≤ 32) ∧
    (n.toNat = 2 ^ 256 - 1 → (r = .ceil ∨ r = .expand) →
      (exec (.log2 (.mode r)) s = .next { s with hi := 0, lo := 256, ok := true, err := 0 }) ∧
      (exec (.log10 (.mode r)) s = .next { s with hi := 0, lo := 78, ok := true, err := 0 }) ∧
      (exec (.log256 (.mode r)) s = .next { s with hi := 0, lo := 32, ok := true, err := 0 }))

/-- R171: ROUNDSUP reads no register, so this is of every state. -/
def Obligations.RoundsUpGivesThePredicate : Prop :=
  decode 0x0024 = .op (.roundsUp (.mode .floor)) ∧ decode 0x0124 = .op (.roundsUp (.mode .ceil)) ∧
  decode 0x0224 = .op (.roundsUp (.mode .trunc)) ∧ decode 0x0324 = .op (.roundsUp (.mode .expand)) ∧
  (∀ (s : State) (k : Fin 4),
    exec (.roundsUp (.reserved k)) s = .next { s with ok := false, err := 3, sticky := true }) ∧
  ∀ (s : State) (r : Rounding),
    exec (.roundsUp (.mode r)) s =
      .next { s with hi := 0, lo := if r = .ceil ∨ r = .expand then 1 else 0, ok := true, err := 0 }

/-- R9 (93 I17): Ceil and Expand are observably identical, and so are Floor and Trunc, in every rounding
command and every state. -/
def Obligations.PairedRoundingsAreIdentical : Prop :=
  ∀ (s : State) (f : RndField → Instr),
    f ∈ [Instr.mulDivR, Instr.tryMulDivR, Instr.sqrt, Instr.log2, Instr.log10, Instr.log256, Instr.roundsUp] →
    exec (f (.mode .floor)) s = exec (f (.mode .trunc)) s ∧ exec (f (.mode .ceil)) s = exec (f (.mode .expand)) s

/-! ### BitOps -/

/-- R210. -/
def Obligations.ClzCountsLeadingZeros : Prop :=
  decode 0x0030 = .op .clz ∧
  ∀ (s : State) (x : Word), s.Holds .A x →
    ∃ c : Nat, exec .clz s = .next { s with hi := 0, lo := word c, ok := true, err := 0 } ∧
      (x = 0 → c = 256) ∧
      (x ≠ 0 → c ≤ 255 ∧ x.getLsbD (255 - c) = true ∧ ∀ j, 255 - c < j → x.getLsbD j = false)

/-- R211: CLZ of 0 is 256; for x ≠ 0, CLZ gives c with bit 255 − c of x set and the bits above it 0, so that
2^(255−c) ≤ x < 2^(256−c), and 255 − c is the Floor LOG2 of x. -/
def Obligations.ClzComplementsFloorLog2 : Prop :=
  ∀ (s : State) (x : Word), s.Holds .A x →
    ∃ t u : State, exec .clz s = .next t ∧ exec (.log2 (.mode .floor)) s = .next u ∧
      (x = 0 → t.lo = 256) ∧
      (x ≠ 0 → x.getLsbD (255 - t.lo.toNat) = true ∧ (∀ j, 255 - t.lo.toNat < j → x.getLsbD j = false) ∧
        2 ^ (255 - t.lo.toNat) ≤ x.toNat ∧ x.toNat < 2 ^ (256 - t.lo.toNat) ∧ u.lo.toNat = 255 - t.lo.toNat)

/-! ### ModularArithmetic -/

/-- R220. -/
def Obligations.InvModGivesTheInverseOrZero : Prop :=
  decode 0x0040 = .op .invMod ∧
  ∀ (s : State) (v m : Word), s.Holds .A v → s.Holds .B m →
    ∃ x : Word, exec .invMod s = .next { s with hi := 0, lo := x, ok := true, err := 0 } ∧
      (m.toNat ≤ 1 ∨ Nat.gcd v.toNat m.toNat ≠ 1 → x = 0) ∧
      (1 < m.toNat → Nat.gcd v.toNat m.toNat = 1 →
        x.toNat < m.toNat ∧ v.toNat * x.toNat % m.toNat = 1)

/-- R221. -/
def Obligations.ModExpGivesThePowerOrFails : Prop :=
  decode 0x0041 = .op .modExp ∧
  ∀ (s : State) (b e m : Word), s.Holds .A b → s.Holds .B e → s.Holds .C m →
    (m = 0 → exec .modExp s = .next { s with ok := false, err := 1, sticky := true }) ∧
    (m ≠ 0 → ∃ r : Word, exec .modExp s = .next { s with hi := 0, lo := r, ok := true, err := 0 } ∧
      r.toNat = b.toNat ^ e.toNat % m.toNat)

/-- R222. -/
def Obligations.TryModExpGivesThePowerOrTryFails : Prop :=
  decode 0x0042 = .op .tryModExp ∧
  ∀ (s : State) (b e m : Word), s.Holds .A b → s.Holds .B e → s.Holds .C m →
    (m = 0 → exec .tryModExp s = .next { s with hi := 0, lo := 0, ok := false, err := 0 }) ∧
    (m ≠ 0 → ∃ r : Word, exec .tryModExp s = .next { s with hi := 0, lo := r, ok := true, err := 0 } ∧
      r.toNat = b.toNat ^ e.toNat % m.toNat)

/-- R223: a nonzero INVMOD result is an inverse below the modulus; for a prime modulus and v not a multiple of it,
INVMOD is MODEXP on (v, m − 2, m). -/
def Obligations.InvModIsAnInverseAndAFermatPower : Prop :=
  (∀ (s t : State) (v m : Word), s.Holds .A v → s.Holds .B m → exec .invMod s = .next t → t.lo ≠ 0 →
    v.toNat * t.lo.toNat % m.toNat = 1 ∧ t.lo.toNat < m.toNat) ∧
  ∀ (s u : State) (v m : Word), s.Holds .A v → s.Holds .B m → Nat.Prime m.toNat → v.toNat % m.toNat ≠ 0 →
    u.Holds .A v → u.Holds .B (m - 2) → u.Holds .C m →
    ∃ x : Word, exec .invMod s = .next { s with hi := 0, lo := x, ok := true, err := 0 } ∧
      exec .modExp u = .next { u with hi := 0, lo := x, ok := true, err := 0 }

/-- R224, R54, R67: the strict byte-string form: an invalid descriptor is BAD_DESCRIPTOR; with valid descriptors
and written operand bytes it reads the inputs as they are before it, writes exactly the modulus's length from the
output offset, and no other byte. -/
def Obligations.ModExpBWritesThePowerOrFails : Prop :=
  decode 0x0043 = .op .modExpB ∧
  (∀ (s : State) (a b c d : Word), s.Holds .A a → s.Holds .B b → s.Holds .C c → s.Holds .D d →
    InvalidDescriptor s.bufBytes a b c d →
    exec .modExpB s = .next { s with ok := false, err := 5, sticky := true }) ∧
  ∀ (s : State) (oB oE oM oOut : Nat) (base exponent modulus : List Byte),
    ByteOperands s oB oE oM oOut base exponent modulus →
    (bigEndian modulus = 0 → exec .modExpB s = .next { s with ok := false, err := 1, sticky := true }) ∧
    (bigEndian modulus ≠ 0 → ∃ m : Memory,
      exec .modExpB s =
        .next { s with hi := 0, lo := word modulus.length, ok := true, err := 0, buf := m } ∧
      (∀ i, i < modulus.length → m.read (oOut + i) = some (BitVec.ofNat 8
        (bigEndian base ^ bigEndian exponent % bigEndian modulus / 256 ^ (modulus.length - 1 - i)))) ∧
      (∀ addr, addr < oOut ∨ oOut + modulus.length ≤ addr → m.read addr = s.buf.read addr))

/-- R225: the try form: an invalid descriptor is still BAD_DESCRIPTOR, a zero modulus is a try failure that writes
no byte. -/
def Obligations.TryModExpBWritesThePowerOrTryFails : Prop :=
  decode 0x0044 = .op .tryModExpB ∧
  (∀ (s : State) (a b c d : Word), s.Holds .A a → s.Holds .B b → s.Holds .C c → s.Holds .D d →
    InvalidDescriptor s.bufBytes a b c d →
    exec .tryModExpB s = .next { s with ok := false, err := 5, sticky := true }) ∧
  ∀ (s : State) (oB oE oM oOut : Nat) (base exponent modulus : List Byte),
    ByteOperands s oB oE oM oOut base exponent modulus →
    (bigEndian modulus = 0 → exec .tryModExpB s = .next { s with hi := 0, lo := 0, ok := false, err := 0 }) ∧
    (bigEndian modulus ≠ 0 → ∃ m : Memory,
      exec .tryModExpB s =
        .next { s with hi := 0, lo := word modulus.length, ok := true, err := 0, buf := m } ∧
      (∀ i, i < modulus.length → m.read (oOut + i) = some (BitVec.ofNat 8
        (bigEndian base ^ bigEndian exponent % bigEndian modulus / 256 ^ (modulus.length - 1 - i)))) ∧
      (∀ addr, addr < oOut ∨ oOut + modulus.length ≤ addr → m.read addr = s.buf.read addr))

/-- R227: the scalar and byte-string forms agree: on the 32-byte encodings of three Words with a nonzero
modulus, MODEXPB writes the 32-byte encoding of the MODEXP result, which is below the modulus. -/
def Obligations.ByteStringModExpAgreesWithScalar : Prop :=
  ∀ (s u : State) (oB oE oM oOut : Nat) (b e m : Word),
    ByteOperands s oB oE oM oOut (beBytes b.toNat 32) (beBytes e.toNat 32) (beBytes m.toNat 32) → m ≠ 0 →
    u.Holds .A b → u.Holds .B e → u.Holds .C m →
    ∃ t t' : State, exec .modExp u = .next t ∧ exec .modExpB s = .next t' ∧
      t.ok = true ∧ t'.ok = true ∧ t'.lo = 32 ∧ t.lo.toNat < m.toNat ∧
      ∀ i, i < 32 → t'.buf.read (oOut + i) = (beBytes t.lo.toNat 32)[i]?

/-! ### Failures and model faults -/

/-- R78, R264: an invalid descriptor of either byte-string command is judged before any BUF byte is read: what BUF
holds, written or not, makes no difference. -/
def Obligations.BadDescriptorFailsBothForms : Prop :=
  ∀ (s : State) (m : Memory) (a b c d : Word), s.Holds .A a → s.Holds .B b → s.Holds .C c → s.Holds .D d →
    InvalidDescriptor s.bufBytes a b c d → ∀ i ∈ [Instr.modExpB, .tryModExpB],
    exec i { s with buf := m } = .next { s with buf := m, ok := false, err := 5, sticky := true }

/-- R269: a command whose first unwritten operand, in the order A, B, C, D, is x records `UninitOperand(x)` and
commits nothing. -/
def Obligations.UnwrittenOperandIsRecorded : Prop :=
  ∀ (i : Instr) (s : State) (before after : List OperandName) (x : OperandName), i.wellFormed = true →
    operandsRead i = before ++ x :: after → (∀ y ∈ before, (s.operand y).written = true) →
    (s.operand x).written = false →
    exec i s = .next { s with faults := s.faults ++ [.uninitOperand x] }

/-- R269: a byte-string command with valid descriptors records the first unwritten byte of the first input range
(base, exponent, modulus) that has one, and commits nothing. -/
def Obligations.UnwrittenBufferByteIsRecorded : Prop :=
  ∀ (i : Instr) (s : State) (oB nB oE nE oM nM oOut k : Nat), i = .modExpB ∨ i = .tryModExpB →
    s.Holds .A (descriptor oB nB) → s.Holds .B (descriptor oE nE) → s.Holds .C (descriptor oM nM) →
    s.Holds .D (word oOut) → s.bufBytes < 2 ^ 32 →
    oB + nB ≤ s.bufBytes → oE + nE ≤ s.bufBytes → oM + nM ≤ s.bufBytes → oOut + nM ≤ s.bufBytes →
    ((List.range nB).map (oB + ·) ++ (List.range nE).map (oE + ·) ++ (List.range nM).map (oM + ·)).find?
      (fun addr => (s.buf.read addr).isNone) = some k →
    exec i s = .next { s with faults := s.faults ++ [.uninitBuffer k] }

/-! ### The whole machine -/

/-- R30, R51, R81, R262: every step keeps the invariant of the reachable states. -/
def Obligations.EveryStepKeepsTheInvariant : Prop :=
  ∀ s t : State, s.Inv → step s = .next t → t.Inv

/-- The invariant holds after reset. -/
def Obligations.ResetMeetsTheInvariant : Prop := State.reset.Inv

/-- R260, R263, R268–R270, R295: every step of every state answers a next state: the unit stalls nothing, refuses
nothing, and every command terminates. The model's own: a step that records a model fault answers a next state
(notes/assumptions/5.md), no step changes BUF_BYTES (3.md), and `pending` and `hpc` move as they do (6.md). -/
def Obligations.EveryStepCompletes : Prop :=
  ∀ s : State, ∃ t : State, step s = .next t ∧ t.bufBytes = s.bufBytes ∧
    t.hpc = s.hpc + (if s.pending = [] then 0 else 1) ∧ t.pending = s.pending.tail

/-- R260, R80, R81, R262, R269: every command ends in success, try failure, strict failure or model fault, and changes
nothing that its outcome does not name: no operand register, not CMD, and no BUF byte but, in a success of MODEXPB or
TRYMODEXPB, those from the offset D names, as many as the length field of C says. That a model fault leaves a next state is
the model's reading (notes/assumptions/5.md). -/
def Obligations.EveryCommandHasOneOfFourOutcomes : Prop :=
  ∀ (i : Instr) (s : State),
    (∃ hi lo m, exec i s = .next { s with hi := hi, lo := lo, ok := true, err := 0, buf := m } ∧
      (i ≠ .modExpB → i ≠ .tryModExpB → m = s.buf) ∧
      (i = .modExpB ∨ i = .tryModExpB →
        ∃ oOut, outputDescriptor s.bufBytes (s.c.value.extractLsb' 32 32).toNat s.d.value = some oOut ∧
          ∀ addr, addr < oOut ∨ oOut + (s.c.value.extractLsb' 32 32).toNat ≤ addr →
            m.read addr = s.buf.read addr)) ∨
    exec i s = .next { s with hi := 0, lo := 0, ok := false, err := 0 } ∨
    (∃ e : BitVec 3, e ∈ [1, 2, 3, 4, 5] ∧
      exec i s = .next { s with ok := false, err := e, sticky := true }) ∨
    (∃ f, exec i s = .next { s with faults := s.faults ++ [f] })

/-- R51: commands other than MODEXPB and TRYMODEXPB never read or write BUF. -/
def Obligations.OnlyByteStringCommandsUseBuf : Prop :=
  ∀ (i : Instr) (s : State) (m : Memory), i ≠ .modExpB → i ≠ .tryModExpB →
    ∃ t : State, exec i s = .next t ∧ t.buf = s.buf ∧ exec i { s with buf := m } = .next { t with buf := m }

/-- R31: every strict failure (a command that leaves ERR ≠ NONE without a model fault) sets STICKY; no command and
no host access clears it; reset does. -/
def Obligations.StickyIsSetByStrictFailuresAndClearedOnlyByReset : Prop :=
  (∀ (v : Word) (s t : State), executeCommand v s = .next t → t.faults = s.faults → t.err ≠ 0 → t.sticky = true) ∧
  (∀ s t : State, step s = .next t → s.sticky = true → s.pending.head? ≠ some .reset → t.sticky = true) ∧
  (∀ s t : State, step s = .next t → s.pending.head? = some .reset → t.sticky = false)

/-- R36, R290: the recorded model faults are never cleared, not even by reset. -/
def Obligations.RecordedFaultsAreNeverCleared : Prop :=
  ∀ s t : State, step s = .next t → ∃ more, t.faults = s.faults ++ more ∧ more.length ≤ 1

/-- R33: a command's outcome is a function of the command word, the operand registers it reads and, for the
byte-string commands, the BUF bytes its input descriptors name (and BUF_BYTES): the same word written to CMD in two
states that agree on those (what is written, and with which Word) ends in the same outcome, whatever else they hold,
the Words of unwritten registers among it. -/
def Obligations.OutcomeDependsOnlyOnOperands : Prop :=
  ∀ (v : Word) (s u : State),
    (∀ i, decode v = .op i → (∀ x ∈ operandsRead i, ∀ w, s.Holds x w ↔ u.Holds x w) ∧
      (i = .modExpB ∨ i = .tryModExpB → s.bufBytes = u.bufBytes ∧
        ∀ x ∈ [OperandName.A, .B, .C], ∀ w, s.Holds x w → ∀ addr, w.toNat % 2 ^ 32 ≤ addr →
          addr < w.toNat % 2 ^ 32 + w.toNat / 2 ^ 32 % 2 ^ 32 → s.buf.read addr = u.buf.read addr)) →
    ∃ o : OpOutcome, executeCommand v s = .next (commit o { s with cmd := v }) ∧
      executeCommand v u = .next (commit o { u with cmd := v })
end

