-- ==== Sys2Proof/Laws/Arith.lean ====
section
/-! SUPPORT. What the pure functions of Machine/Arith.lean compute: the defining property the spec gives each
(42_roots_logs.md R172, R174; 43_bitops.md R210; 44_modular.md R220, R221). -/

namespace Sys2Proof.Machine

/-! ### Floor square root -/

theorem isqrtFrom_spec (n : Nat) : ∀ k r, r * r ≤ n → n < (r + 2 ^ k) * (r + 2 ^ k) →
    isqrtFrom n k r * isqrtFrom n k r ≤ n ∧ n < (isqrtFrom n k r + 1) * (isqrtFrom n k r + 1)
  | 0, r, hlo, hhi => ⟨hlo, by simpa [isqrtFrom] using hhi⟩
  | k + 1, r, hlo, hhi => by
    unfold isqrtFrom
    split
    · next h =>
      exact isqrtFrom_spec n k _ h (by rwa [Nat.add_assoc, ← Nat.two_mul, ← Nat.pow_succ'])
    · next h => exact isqrtFrom_spec n k r hlo (Nat.lt_of_not_le h)

/-- R172: `isqrt n` squared is at most n, and n is below the next square. -/
theorem isqrt_spec (n : Nat) (h : n < 2 ^ 256) :
    isqrt n * isqrt n ≤ n ∧ n < (isqrt n + 1) * (isqrt n + 1) :=
  isqrtFrom_spec n 128 0 (Nat.zero_le _) (by simpa [← Nat.pow_add] using h)

/-- R172: the floor square root of a Word is below 2^128. -/
theorem isqrt_lt (n : Nat) (h : n < 2 ^ 256) : isqrt n < 2 ^ 128 := by
  have hs := (isqrt_spec n h).1
  by_contra hge
  have : 2 ^ 128 * 2 ^ 128 ≤ isqrt n * isqrt n := Nat.mul_le_mul (by omega) (by omega)
  rw [← Nat.pow_add] at this
  omega

/-! ### Floor logarithm -/

theorem flog_zero (base : Nat) (hb : 2 ≤ base) : flog base 0 = 0 := by
  unfold flog
  rw [Nat.findGreatest_eq_zero_iff]
  intro k _ _
  have : 0 < base ^ k := Nat.pow_pos (by omega)
  omega

/-- R174: `flog base n` brackets n between two neighbouring powers of the base. -/
theorem flog_spec (base n : Nat) (hb : 2 ≤ base) (h1 : 1 ≤ n) (hn : n < 2 ^ 256) :
    base ^ flog base n ≤ n ∧ n < base ^ (flog base n + 1) := by
  refine ⟨Nat.findGreatest_spec (P := fun r => base ^ r ≤ n) (m := 0) (Nat.zero_le _) (by simpa using h1), ?_⟩
  by_contra hle
  have hle : base ^ (flog base n + 1) ≤ n := Nat.le_of_not_lt hle
  by_cases hk : flog base n + 1 ≤ 255
  · exact Nat.findGreatest_is_greatest (P := fun r => base ^ r ≤ n) (Nat.lt_succ_self _) hk hle
  · have h2 : 2 ^ 256 ≤ 2 ^ (flog base n + 1) := Nat.pow_le_pow_right (by omega) (by omega)
    have h3 : 2 ^ (flog base n + 1) ≤ base ^ (flog base n + 1) := Nat.pow_le_pow_left hb _
    omega

theorem flog_le (base n : Nat) : flog base n ≤ 255 := Nat.findGreatest_le _

/-- R174: the bracket determines the floor logarithm. -/
theorem flog_unique (base n r : Nat) (hb : 2 ≤ base) (hn : n < 2 ^ 256) (hlo : base ^ r ≤ n)
    (hhi : n < base ^ (r + 1)) : flog base n = r := by
  have h1 : 1 ≤ n := Nat.le_trans (Nat.pow_pos (by omega)) hlo
  obtain ⟨hlo', hhi'⟩ := flog_spec base n hb h1 hn
  have h2 := (Nat.pow_lt_pow_iff_right (by omega : 1 < base)).mp (Nat.lt_of_le_of_lt hlo hhi')
  have h3 := (Nat.pow_lt_pow_iff_right (by omega : 1 < base)).mp (Nat.lt_of_le_of_lt hlo' hhi)
  omega

/-! ### Leading zeros -/

/-- R210: the highest set bit of a nonzero 256-bit value is its floor base-2 logarithm. -/
theorem highestBit_spec (x : Nat) (h0 : x ≠ 0) (hx : x < 2 ^ 256) :
    2 ^ highestBit x ≤ x ∧ x < 2 ^ (highestBit x + 1) := by
  have hs : x.log2 ≤ 255 := by
    have := (Nat.log2_lt h0 (k := 256)).mpr hx
    omega
  have hb : x.testBit (highestBit x) = true :=
    Nat.findGreatest_spec (P := fun i => x.testBit i = true) hs (Nat.testBit_log2 h0)
  refine ⟨Nat.ge_two_pow_of_testBit hb, Nat.lt_pow_two_of_testBit x fun i hi => ?_⟩
  by_contra hne
  have hset : x.testBit i = true := by simpa using hne
  by_cases hi' : i ≤ 255
  · exact Nat.findGreatest_is_greatest (P := fun i => x.testBit i = true) hi hi' hset
  · have := Nat.ge_two_pow_of_testBit hset
    have : 2 ^ 256 ≤ 2 ^ i := Nat.pow_le_pow_right (by omega) (by omega)
    omega

theorem highestBit_le (x : Nat) : highestBit x ≤ 255 := Nat.findGreatest_le _

/-- R211: with c leading zeros, `2^(255−c) ≤ x < 2^(256−c)`. -/
theorem leadingZeros_spec (x : Nat) (h0 : x ≠ 0) (hx : x < 2 ^ 256) :
    leadingZeros x ≤ 255 ∧ 2 ^ (255 - leadingZeros x) ≤ x ∧ x < 2 ^ (256 - leadingZeros x) := by
  have hs := highestBit_spec x h0 hx
  have hle := highestBit_le x
  simp only [leadingZeros, h0, if_false]
  refine ⟨by omega, ?_, ?_⟩
  · rw [show 255 - (255 - highestBit x) = highestBit x by omega]; exact hs.1
  · rw [show 256 - (255 - highestBit x) = highestBit x + 1 by omega]; exact hs.2

@[simp] theorem leadingZeros_zero : leadingZeros 0 = 256 := rfl

/-! ### Modular exponentiation -/

theorem powModBits_eq (m : Nat) : ∀ k b e, e < 2 ^ k → powModBits m k b e = b ^ e % m
  | 0, b, e, he => by
    have : e = 0 := by simpa using he
    subst this; simp [powModBits]
  | k + 1, b, e, he => by
    have hhalf : e / 2 < 2 ^ k := by rw [Nat.pow_succ] at he; omega
    have ih := powModBits_eq m k (b * b % m) (e / 2) hhalf
    have hsq : (b * b % m) ^ (e / 2) % m = b ^ (2 * (e / 2)) % m := by
      rw [← Nat.pow_mod, Nat.pow_mul, Nat.pow_two]
    unfold powModBits
    split
    · next h =>
      rw [ih, hsq, Nat.mul_mod_mod, ← Nat.pow_succ']
      congr 2; omega
    · next h =>
      rw [ih, hsq]
      congr 2; omega

/-- R221: square-and-multiply gives `(b^e) mod m`. -/
theorem powMod_eq (b e m : Nat) : powMod b e m = b ^ e % m := by
  unfold powMod
  rw [powModBits_eq m _ _ e Nat.lt_log2_self, ← Nat.pow_mod]

/-! ### Modular inverse -/

/-- The coefficient that Euclid's algorithm keeps: `t · v ≡ r (mod m)` for both remainders, so that the answer's
product with v is the greatest common divisor. -/
theorem euclid_spec (m : Nat) (hm : 1 < m) (v : Nat) : ∀ k r0 r1 t0 t1,
    r0 * r1 < 2 ^ k → 0 < r0 → r1 < r0 →
    t0 * v ≡ r0 [MOD m] → t1 * v ≡ r1 [MOD m] → t0 < m → t1 < m →
    euclid m (k + 1) r0 r1 t0 t1 < m ∧ euclid m (k + 1) r0 r1 t0 t1 * v ≡ Nat.gcd r0 r1 [MOD m]
  | k, r0, r1, t0, t1, hk, h0, hlt, e0, e1, l0, l1 => by
    unfold euclid
    split
    · next h => subst h; exact ⟨l0, by simpa using e0⟩
    · next h =>
      have hr1 : 0 < r1 := Nat.pos_of_ne_zero h
      have hmodlt : r0 % r1 < r1 := Nat.mod_lt _ hr1
      have hdiv : 1 ≤ r0 / r1 := (Nat.one_le_div_iff hr1).mpr (by omega)
      have hdm : r1 * (r0 / r1) + r0 % r1 = r0 := Nat.div_add_mod r0 r1
      have hsmall : 2 * (r0 % r1) < r0 := by nlinarith
      have hk0 : 0 < k := by
        by_contra hk0
        have : k = 0 := by omega
        subst this
        have : 1 ≤ r0 * r1 := Nat.mul_pos h0 hr1
        omega
      obtain ⟨k', rfl⟩ : ∃ k', k = k' + 1 := ⟨k - 1, by omega⟩
      have hprod : r1 * (r0 % r1) < 2 ^ k' := by
        rw [Nat.pow_succ] at hk
        nlinarith
      have hstep : (t0 + (m - (r0 / r1 * t1) % m)) % m * v ≡ r0 % r1 [MOD m] := by
        have hq := Nat.mod_lt (r0 / r1 * t1) (by omega : 0 < m)
        rw [← ZMod.natCast_eq_natCast_iff] at e0 e1 ⊢
        push_cast [Nat.cast_sub hq.le, ZMod.natCast_mod] at e0 e1 ⊢
        have hdm' : (r1 : ZMod m) * ((r0 / r1 : Nat) : ZMod m) + ((r0 % r1 : Nat) : ZMod m) = r0 := by
          rw [← Nat.cast_mul, ← Nat.cast_add, hdm]
        simp only [ZMod.natCast_self]
        linear_combination e0 - ((r0 / r1 : Nat) : ZMod m) * e1 - hdm'
      have ih := euclid_spec m hm v k' r1 (r0 % r1) t1 _ hprod hr1 hmodlt e1 hstep l1
        (Nat.mod_lt _ (by omega))
      refine ⟨ih.1, ih.2.trans ?_⟩
      rw [Nat.gcd_comm r1, ← Nat.gcd_rec r1 r0, Nat.gcd_comm]

theorem mul_lt_two_pow (x y j k : Nat) (hx : x < 2 ^ j) (hy : y < 2 ^ k) : x * y < 2 ^ (j + k + 1) := by
  rw [Nat.pow_succ, Nat.pow_add]
  exact (Nat.mul_lt_mul'' hx hy).trans_le (Nat.le_mul_of_pos_right _ (by omega))

/-- R220: `modInverse v m` is the inverse of v modulo m. -/
theorem modInverse_spec (v m : Nat) (hm : 1 < m) (hm' : m < 2 ^ 256) (hg : Nat.gcd v m = 1) :
    modInverse v m < m ∧ v * modInverse v m % m = 1 := by
  have hlt : v % m < m := Nat.mod_lt _ (by omega)
  have hprod : m * (v % m) < 2 ^ (256 + 256 + 1) := mul_lt_two_pow m (v % m) 256 256 hm' (by omega)
  have h := euclid_spec m hm v (256 + 256 + 1) m (v % m) 0 1 hprod (by omega) hlt
    (by simpa using (Nat.modEq_zero_iff_dvd.mpr (dvd_refl m)).symm)
    (by simpa using (Nat.mod_modEq v m).symm) (by omega) hm
  refine ⟨h.1, ?_⟩
  have hgcd : Nat.gcd m (v % m) = 1 := by rw [Nat.gcd_comm, ← Nat.gcd_rec, Nat.gcd_comm, hg]
  rw [hgcd] at h
  have hone := h.2
  rw [Nat.ModEq, Nat.mod_eq_of_lt hm, Nat.mul_comm] at hone
  exact hone

/-- R220: the inverse is unique. -/
theorem inverse_unique (v m x y : Nat) (hx : x < m) (hy : y < m) (hvx : v * x % m = 1) (hvy : v * y % m = 1) :
    x = y := by
  have hxy : x * (v * y) ≡ y * (v * x) [MOD m] := by
    rw [show x * (v * y) = y * (v * x) by ring]
  have hm : 1 < m := by
    rcases Nat.lt_or_ge 1 m with h | h
    · exact h
    · interval_cases m
      · omega
      · omega
  have e1 : x * (v * y) ≡ x [MOD m] := by
    have : v * y ≡ 1 [MOD m] := by rw [Nat.ModEq, hvy, Nat.mod_eq_of_lt hm]
    simpa using this.mul_left x
  have e2 : y * (v * x) ≡ y [MOD m] := by
    have : v * x ≡ 1 [MOD m] := by rw [Nat.ModEq, hvx, Nat.mod_eq_of_lt hm]
    simpa using this.mul_left y
  have := e1.symm.trans (hxy.trans e2)
  rwa [Nat.ModEq, Nat.mod_eq_of_lt hx, Nat.mod_eq_of_lt hy] at this

end Sys2Proof.Machine
end

