-- ==== Sys2Proof/Laws/Decode.lean ====
section
/-! SUPPORT. The laws of the decoder and the encoder (30_encoding.md R70–R76): the fields of an encoded word, the
inverse pairs code/ofCode, and a word put together again from its fields. -/

namespace Sys2Proof

@[simp] theorem reservedField_encode (i : Instr) : reservedField (encode i) = 0 := by
  unfold reservedField encode
  generalize i.rndCode = r; generalize i.op.code = o
  ext j hj
  simp only [BitVec.getElem_extractLsb', BitVec.getLsbD_append]
  simp [show ¬ 11 + j < 8 by omega, show ¬ 11 + j - 8 < 3 by omega]

@[simp] theorem rndField_encode (i : Instr) : rndField (encode i) = i.rndCode := by
  unfold rndField encode
  generalize i.rndCode = r; generalize i.op.code = o
  ext j hj
  simp only [BitVec.getElem_extractLsb', BitVec.getLsbD_append]
  simp [show ¬ 8 + j < 8 by omega, show 8 + j - 8 = j by omega, hj]

@[simp] theorem opField_encode (i : Instr) : opField (encode i) = i.op.code := by
  unfold opField encode
  generalize i.rndCode = r; generalize i.op.code = o
  ext j hj
  simp only [BitVec.getElem_extractLsb', BitVec.getLsbD_append]
  simp [show j < 8 by omega]

/-- R70: a word is its reserved bits, its RND and its OP, put together. -/
theorem word_eq_fields (v : Word) : v = reservedField v ++ rndField v ++ opField v := by
  refine BitVec.eq_of_getLsbD_eq fun j hj => ?_
  simp only [reservedField, rndField, opField, BitVec.getLsbD_append, BitVec.getLsbD_extractLsb', Nat.zero_add]
  by_cases h8 : j < 8
  · simp [h8]
  · by_cases h11 : j - 8 < 3
    · simp [h8, h11, show 8 + (j - 8) = j by omega]
    · simp [h8, h11, show 11 + (j - 8 - 3) = j by omega, show j - 8 - 3 < 245 by omega]

/-- R75: the opcode map inverts the operation codes. -/
@[simp] theorem Op.ofCode_code (o : Op) : Op.ofCode o.code = some o := by cases o <;> decide

/-- R75: an OP the opcode map gives an operation for is that operation's code. -/
theorem Op.code_of_ofCode (c : BitVec 8) (o : Op) (h : Op.ofCode c = some o) : o.code = c := by
  have := List.find?_some h
  simpa using this

/-- R75: an OP without an operation is no operation's code. -/
theorem Op.ofCode_none (c : BitVec 8) (h : Op.ofCode c = none) (o : Op) : o.code ≠ c := by
  rintro rfl
  simp at h

/-- R72: the RND field read from the bits of a field is that field. -/
@[simp] theorem RndField.ofCode_code (f : RndField) : RndField.ofCode f.code = f := by
  cases f with
  | mode r => cases r <;> decide
  | reserved k => revert k; decide

/-- R72: every three bits are the code of the RND field read from them. -/
@[simp] theorem RndField.code_ofCode (c : BitVec 3) : (RndField.ofCode c).code = c := by
  revert c; decide

/-- R72: the fields that name no Rounding are those with a code of 4 to 7. -/
theorem RndField.wellFormed_false_iff (f : RndField) : f.wellFormed = false ↔ 4 ≤ f.code.toNat := by
  cases f with
  | mode r => cases r <;> decide
  | reserved k => revert k; decide

@[simp] theorem Instr.op_ofOp (o : Op) (f : RndField) : (Instr.ofOp o f).op = o := by cases o <;> rfl

theorem Instr.rndCode_ofOp (o : Op) (f : RndField) :
    (Instr.ofOp o f).rndCode = if o.usesRnd then f.code else 0 := by cases o <;> rfl

theorem Instr.wellFormed_ofOp (o : Op) (f : RndField) :
    (Instr.ofOp o f).wellFormed = (!o.usesRnd || f.wellFormed) := by cases o <;> rfl

/-- A command that is no rounding command has RND 0. -/
theorem Instr.rndCode_of_not_usesRnd (i : Instr) (h : i.op.usesRnd = false) : i.rndCode = 0 := by
  cases i <;> first | rfl | cases h

/-- A command is made from its operation and the field read from its RND bits. -/
theorem Instr.ofOp_op (i : Instr) : Instr.ofOp i.op (RndField.ofCode i.rndCode) = i := by
  cases i <;> simp [Instr.op, Instr.rndCode, Instr.ofOp]

end Sys2Proof
end

