-- ==== Sys2Proof/Laws/State.lean ====
section
/-! SUPPORT. One lemma for each field of State under each named update, true by rfl and tagged @[simp]: a later
proof reads a field of an updated state without unfolding the update. -/

namespace Sys2Proof.Machine

@[simp] theorem errNone_eq : errNone = 0 := rfl

variable (s : State)

/-! ### flagsSuccess -/

@[simp] theorem flagsSuccess_a : (flagsSuccess s).a = s.a := rfl
@[simp] theorem flagsSuccess_b : (flagsSuccess s).b = s.b := rfl
@[simp] theorem flagsSuccess_c : (flagsSuccess s).c = s.c := rfl
@[simp] theorem flagsSuccess_d : (flagsSuccess s).d = s.d := rfl
@[simp] theorem flagsSuccess_cmd : (flagsSuccess s).cmd = s.cmd := rfl
@[simp] theorem flagsSuccess_hi : (flagsSuccess s).hi = s.hi := rfl
@[simp] theorem flagsSuccess_lo : (flagsSuccess s).lo = s.lo := rfl
@[simp] theorem flagsSuccess_ok : (flagsSuccess s).ok = true := rfl
@[simp] theorem flagsSuccess_err : (flagsSuccess s).err = 0 := rfl
@[simp] theorem flagsSuccess_sticky : (flagsSuccess s).sticky = s.sticky := rfl
@[simp] theorem flagsSuccess_buf : (flagsSuccess s).buf = s.buf := rfl
@[simp] theorem flagsSuccess_faults : (flagsSuccess s).faults = s.faults := rfl
@[simp] theorem flagsSuccess_hpc : (flagsSuccess s).hpc = s.hpc := rfl
@[simp] theorem flagsSuccess_bufBytes : (flagsSuccess s).bufBytes = s.bufBytes := rfl
@[simp] theorem flagsSuccess_pending : (flagsSuccess s).pending = s.pending := rfl
@[simp] theorem flagsSuccess_answer : (flagsSuccess s).answer = s.answer := rfl
@[simp] theorem flagsSuccess_draws : (flagsSuccess s).draws = s.draws := rfl

/-! ### flagsTryFail -/

@[simp] theorem flagsTryFail_a : (flagsTryFail s).a = s.a := rfl
@[simp] theorem flagsTryFail_b : (flagsTryFail s).b = s.b := rfl
@[simp] theorem flagsTryFail_c : (flagsTryFail s).c = s.c := rfl
@[simp] theorem flagsTryFail_d : (flagsTryFail s).d = s.d := rfl
@[simp] theorem flagsTryFail_cmd : (flagsTryFail s).cmd = s.cmd := rfl
@[simp] theorem flagsTryFail_hi : (flagsTryFail s).hi = s.hi := rfl
@[simp] theorem flagsTryFail_lo : (flagsTryFail s).lo = s.lo := rfl
@[simp] theorem flagsTryFail_ok : (flagsTryFail s).ok = false := rfl
@[simp] theorem flagsTryFail_err : (flagsTryFail s).err = 0 := rfl
@[simp] theorem flagsTryFail_sticky : (flagsTryFail s).sticky = s.sticky := rfl
@[simp] theorem flagsTryFail_buf : (flagsTryFail s).buf = s.buf := rfl
@[simp] theorem flagsTryFail_faults : (flagsTryFail s).faults = s.faults := rfl
@[simp] theorem flagsTryFail_hpc : (flagsTryFail s).hpc = s.hpc := rfl
@[simp] theorem flagsTryFail_bufBytes : (flagsTryFail s).bufBytes = s.bufBytes := rfl
@[simp] theorem flagsTryFail_pending : (flagsTryFail s).pending = s.pending := rfl
@[simp] theorem flagsTryFail_answer : (flagsTryFail s).answer = s.answer := rfl
@[simp] theorem flagsTryFail_draws : (flagsTryFail s).draws = s.draws := rfl

/-! ### flagsStrict -/

@[simp] theorem flagsStrict_a (e : StrictError) : (flagsStrict e s).a = s.a := rfl
@[simp] theorem flagsStrict_b (e : StrictError) : (flagsStrict e s).b = s.b := rfl
@[simp] theorem flagsStrict_c (e : StrictError) : (flagsStrict e s).c = s.c := rfl
@[simp] theorem flagsStrict_d (e : StrictError) : (flagsStrict e s).d = s.d := rfl
@[simp] theorem flagsStrict_cmd (e : StrictError) : (flagsStrict e s).cmd = s.cmd := rfl
@[simp] theorem flagsStrict_hi (e : StrictError) : (flagsStrict e s).hi = s.hi := rfl
@[simp] theorem flagsStrict_lo (e : StrictError) : (flagsStrict e s).lo = s.lo := rfl
@[simp] theorem flagsStrict_ok (e : StrictError) : (flagsStrict e s).ok = false := rfl
@[simp] theorem flagsStrict_err (e : StrictError) : (flagsStrict e s).err = e.code := rfl
@[simp] theorem flagsStrict_sticky (e : StrictError) : (flagsStrict e s).sticky = true := rfl
@[simp] theorem flagsStrict_buf (e : StrictError) : (flagsStrict e s).buf = s.buf := rfl
@[simp] theorem flagsStrict_faults (e : StrictError) : (flagsStrict e s).faults = s.faults := rfl
@[simp] theorem flagsStrict_hpc (e : StrictError) : (flagsStrict e s).hpc = s.hpc := rfl
@[simp] theorem flagsStrict_bufBytes (e : StrictError) : (flagsStrict e s).bufBytes = s.bufBytes := rfl
@[simp] theorem flagsStrict_pending (e : StrictError) : (flagsStrict e s).pending = s.pending := rfl
@[simp] theorem flagsStrict_answer (e : StrictError) : (flagsStrict e s).answer = s.answer := rfl
@[simp] theorem flagsStrict_draws (e : StrictError) : (flagsStrict e s).draws = s.draws := rfl

/-! ### commitSuccess -/

@[simp] theorem commitSuccess_a (r : WideWord) (w : Option (Nat × List Byte)) : (commitSuccess r w s).a = s.a := rfl
@[simp] theorem commitSuccess_b (r : WideWord) (w : Option (Nat × List Byte)) : (commitSuccess r w s).b = s.b := rfl
@[simp] theorem commitSuccess_c (r : WideWord) (w : Option (Nat × List Byte)) : (commitSuccess r w s).c = s.c := rfl
@[simp] theorem commitSuccess_d (r : WideWord) (w : Option (Nat × List Byte)) : (commitSuccess r w s).d = s.d := rfl
@[simp] theorem commitSuccess_cmd (r : WideWord) (w : Option (Nat × List Byte)) : (commitSuccess r w s).cmd = s.cmd := rfl
@[simp] theorem commitSuccess_hi (r : WideWord) (w : Option (Nat × List Byte)) : (commitSuccess r w s).hi = r.high := rfl
@[simp] theorem commitSuccess_lo (r : WideWord) (w : Option (Nat × List Byte)) : (commitSuccess r w s).lo = r.low := rfl
@[simp] theorem commitSuccess_ok (r : WideWord) (w : Option (Nat × List Byte)) : (commitSuccess r w s).ok = true := rfl
@[simp] theorem commitSuccess_err (r : WideWord) (w : Option (Nat × List Byte)) : (commitSuccess r w s).err = 0 := rfl
@[simp] theorem commitSuccess_sticky (r : WideWord) (w : Option (Nat × List Byte)) : (commitSuccess r w s).sticky = s.sticky := rfl
@[simp] theorem commitSuccess_buf (r : WideWord) (w : Option (Nat × List Byte)) : (commitSuccess r w s).buf = applyWrite w s.buf := rfl
@[simp] theorem commitSuccess_faults (r : WideWord) (w : Option (Nat × List Byte)) : (commitSuccess r w s).faults = s.faults := rfl
@[simp] theorem commitSuccess_hpc (r : WideWord) (w : Option (Nat × List Byte)) : (commitSuccess r w s).hpc = s.hpc := rfl
@[simp] theorem commitSuccess_bufBytes (r : WideWord) (w : Option (Nat × List Byte)) : (commitSuccess r w s).bufBytes = s.bufBytes := rfl
@[simp] theorem commitSuccess_pending (r : WideWord) (w : Option (Nat × List Byte)) : (commitSuccess r w s).pending = s.pending := rfl
@[simp] theorem commitSuccess_answer (r : WideWord) (w : Option (Nat × List Byte)) : (commitSuccess r w s).answer = s.answer := rfl
@[simp] theorem commitSuccess_draws (r : WideWord) (w : Option (Nat × List Byte)) : (commitSuccess r w s).draws = s.draws := rfl

/-! ### commitTryFail -/

@[simp] theorem commitTryFail_a : (commitTryFail s).a = s.a := rfl
@[simp] theorem commitTryFail_b : (commitTryFail s).b = s.b := rfl
@[simp] theorem commitTryFail_c : (commitTryFail s).c = s.c := rfl
@[simp] theorem commitTryFail_d : (commitTryFail s).d = s.d := rfl
@[simp] theorem commitTryFail_cmd : (commitTryFail s).cmd = s.cmd := rfl
@[simp] theorem commitTryFail_hi : (commitTryFail s).hi = 0 := rfl
@[simp] theorem commitTryFail_lo : (commitTryFail s).lo = 0 := rfl
@[simp] theorem commitTryFail_ok : (commitTryFail s).ok = false := rfl
@[simp] theorem commitTryFail_err : (commitTryFail s).err = 0 := rfl
@[simp] theorem commitTryFail_sticky : (commitTryFail s).sticky = s.sticky := rfl
@[simp] theorem commitTryFail_buf : (commitTryFail s).buf = s.buf := rfl
@[simp] theorem commitTryFail_faults : (commitTryFail s).faults = s.faults := rfl
@[simp] theorem commitTryFail_hpc : (commitTryFail s).hpc = s.hpc := rfl
@[simp] theorem commitTryFail_bufBytes : (commitTryFail s).bufBytes = s.bufBytes := rfl
@[simp] theorem commitTryFail_pending : (commitTryFail s).pending = s.pending := rfl
@[simp] theorem commitTryFail_answer : (commitTryFail s).answer = s.answer := rfl
@[simp] theorem commitTryFail_draws : (commitTryFail s).draws = s.draws := rfl

/-! ### strictFail -/

@[simp] theorem strictFail_a (e : StrictError) : (strictFail e s).a = s.a := rfl
@[simp] theorem strictFail_b (e : StrictError) : (strictFail e s).b = s.b := rfl
@[simp] theorem strictFail_c (e : StrictError) : (strictFail e s).c = s.c := rfl
@[simp] theorem strictFail_d (e : StrictError) : (strictFail e s).d = s.d := rfl
@[simp] theorem strictFail_cmd (e : StrictError) : (strictFail e s).cmd = s.cmd := rfl
@[simp] theorem strictFail_hi (e : StrictError) : (strictFail e s).hi = s.hi := rfl
@[simp] theorem strictFail_lo (e : StrictError) : (strictFail e s).lo = s.lo := rfl
@[simp] theorem strictFail_ok (e : StrictError) : (strictFail e s).ok = false := rfl
@[simp] theorem strictFail_err (e : StrictError) : (strictFail e s).err = e.code := rfl
@[simp] theorem strictFail_sticky (e : StrictError) : (strictFail e s).sticky = true := rfl
@[simp] theorem strictFail_buf (e : StrictError) : (strictFail e s).buf = s.buf := rfl
@[simp] theorem strictFail_faults (e : StrictError) : (strictFail e s).faults = s.faults := rfl
@[simp] theorem strictFail_hpc (e : StrictError) : (strictFail e s).hpc = s.hpc := rfl
@[simp] theorem strictFail_bufBytes (e : StrictError) : (strictFail e s).bufBytes = s.bufBytes := rfl
@[simp] theorem strictFail_pending (e : StrictError) : (strictFail e s).pending = s.pending := rfl
@[simp] theorem strictFail_answer (e : StrictError) : (strictFail e s).answer = s.answer := rfl
@[simp] theorem strictFail_draws (e : StrictError) : (strictFail e s).draws = s.draws := rfl

/-! ### recordFault -/

@[simp] theorem recordFault_a (f : ModelFault) : (recordFault f s).a = s.a := rfl
@[simp] theorem recordFault_b (f : ModelFault) : (recordFault f s).b = s.b := rfl
@[simp] theorem recordFault_c (f : ModelFault) : (recordFault f s).c = s.c := rfl
@[simp] theorem recordFault_d (f : ModelFault) : (recordFault f s).d = s.d := rfl
@[simp] theorem recordFault_cmd (f : ModelFault) : (recordFault f s).cmd = s.cmd := rfl
@[simp] theorem recordFault_hi (f : ModelFault) : (recordFault f s).hi = s.hi := rfl
@[simp] theorem recordFault_lo (f : ModelFault) : (recordFault f s).lo = s.lo := rfl
@[simp] theorem recordFault_ok (f : ModelFault) : (recordFault f s).ok = s.ok := rfl
@[simp] theorem recordFault_err (f : ModelFault) : (recordFault f s).err = s.err := rfl
@[simp] theorem recordFault_sticky (f : ModelFault) : (recordFault f s).sticky = s.sticky := rfl
@[simp] theorem recordFault_buf (f : ModelFault) : (recordFault f s).buf = s.buf := rfl
@[simp] theorem recordFault_faults (f : ModelFault) : (recordFault f s).faults = s.faults ++ [f] := rfl
@[simp] theorem recordFault_hpc (f : ModelFault) : (recordFault f s).hpc = s.hpc := rfl
@[simp] theorem recordFault_bufBytes (f : ModelFault) : (recordFault f s).bufBytes = s.bufBytes := rfl
@[simp] theorem recordFault_pending (f : ModelFault) : (recordFault f s).pending = s.pending := rfl
@[simp] theorem recordFault_answer (f : ModelFault) : (recordFault f s).answer = s.answer := rfl
@[simp] theorem recordFault_draws (f : ModelFault) : (recordFault f s).draws = s.draws := rfl

/-! ### accept -/

@[simp] theorem accept_a (rest : List HostTxn) : (accept rest s).a = s.a := rfl
@[simp] theorem accept_b (rest : List HostTxn) : (accept rest s).b = s.b := rfl
@[simp] theorem accept_c (rest : List HostTxn) : (accept rest s).c = s.c := rfl
@[simp] theorem accept_d (rest : List HostTxn) : (accept rest s).d = s.d := rfl
@[simp] theorem accept_cmd (rest : List HostTxn) : (accept rest s).cmd = s.cmd := rfl
@[simp] theorem accept_hi (rest : List HostTxn) : (accept rest s).hi = s.hi := rfl
@[simp] theorem accept_lo (rest : List HostTxn) : (accept rest s).lo = s.lo := rfl
@[simp] theorem accept_ok (rest : List HostTxn) : (accept rest s).ok = s.ok := rfl
@[simp] theorem accept_err (rest : List HostTxn) : (accept rest s).err = s.err := rfl
@[simp] theorem accept_sticky (rest : List HostTxn) : (accept rest s).sticky = s.sticky := rfl
@[simp] theorem accept_buf (rest : List HostTxn) : (accept rest s).buf = s.buf := rfl
@[simp] theorem accept_faults (rest : List HostTxn) : (accept rest s).faults = s.faults := rfl
@[simp] theorem accept_hpc (rest : List HostTxn) : (accept rest s).hpc = s.hpc + 1 := rfl
@[simp] theorem accept_bufBytes (rest : List HostTxn) : (accept rest s).bufBytes = s.bufBytes := rfl
@[simp] theorem accept_pending (rest : List HostTxn) : (accept rest s).pending = rest := rfl
@[simp] theorem accept_answer (rest : List HostTxn) : (accept rest s).answer = .none := rfl
@[simp] theorem accept_draws (rest : List HostTxn) : (accept rest s).draws = s.draws := rfl

/-! ### applyReset -/

@[simp] theorem applyReset_a : (applyReset s).a = .unwritten := rfl
@[simp] theorem applyReset_b : (applyReset s).b = .unwritten := rfl
@[simp] theorem applyReset_c : (applyReset s).c = .unwritten := rfl
@[simp] theorem applyReset_d : (applyReset s).d = .unwritten := rfl
@[simp] theorem applyReset_cmd : (applyReset s).cmd = 0 := rfl
@[simp] theorem applyReset_hi : (applyReset s).hi = 0 := rfl
@[simp] theorem applyReset_lo : (applyReset s).lo = 0 := rfl
@[simp] theorem applyReset_ok : (applyReset s).ok = false := rfl
@[simp] theorem applyReset_err : (applyReset s).err = 0 := rfl
@[simp] theorem applyReset_sticky : (applyReset s).sticky = false := rfl
@[simp] theorem applyReset_buf : (applyReset s).buf = [] := rfl
@[simp] theorem applyReset_faults : (applyReset s).faults = s.faults := rfl
@[simp] theorem applyReset_hpc : (applyReset s).hpc = s.hpc := rfl
@[simp] theorem applyReset_bufBytes : (applyReset s).bufBytes = s.bufBytes := rfl
@[simp] theorem applyReset_pending : (applyReset s).pending = s.pending := rfl
@[simp] theorem applyReset_answer : (applyReset s).answer = .none := rfl
@[simp] theorem applyReset_draws : (applyReset s).draws = s.draws := rfl

/-! ### setOperand -/

@[simp] theorem setOperand_cmd (x : OperandName) (v : Word) : (s.setOperand x v).cmd = s.cmd := by
  cases x <;> rfl
@[simp] theorem setOperand_hi (x : OperandName) (v : Word) : (s.setOperand x v).hi = s.hi := by
  cases x <;> rfl
@[simp] theorem setOperand_lo (x : OperandName) (v : Word) : (s.setOperand x v).lo = s.lo := by
  cases x <;> rfl
@[simp] theorem setOperand_ok (x : OperandName) (v : Word) : (s.setOperand x v).ok = s.ok := by
  cases x <;> rfl
@[simp] theorem setOperand_err (x : OperandName) (v : Word) : (s.setOperand x v).err = s.err := by
  cases x <;> rfl
@[simp] theorem setOperand_sticky (x : OperandName) (v : Word) : (s.setOperand x v).sticky = s.sticky := by
  cases x <;> rfl
@[simp] theorem setOperand_buf (x : OperandName) (v : Word) : (s.setOperand x v).buf = s.buf := by
  cases x <;> rfl
@[simp] theorem setOperand_faults (x : OperandName) (v : Word) : (s.setOperand x v).faults = s.faults := by
  cases x <;> rfl
@[simp] theorem setOperand_hpc (x : OperandName) (v : Word) : (s.setOperand x v).hpc = s.hpc := by
  cases x <;> rfl
@[simp] theorem setOperand_bufBytes (x : OperandName) (v : Word) : (s.setOperand x v).bufBytes = s.bufBytes := by
  cases x <;> rfl
@[simp] theorem setOperand_pending (x : OperandName) (v : Word) : (s.setOperand x v).pending = s.pending := by
  cases x <;> rfl
@[simp] theorem setOperand_answer (x : OperandName) (v : Word) : (s.setOperand x v).answer = s.answer := by
  cases x <;> rfl
@[simp] theorem setOperand_draws (x : OperandName) (v : Word) : (s.setOperand x v).draws = s.draws := by
  cases x <;> rfl

theorem setOperand_operand (x y : OperandName) (v : Word) :
    (s.setOperand x v).operand y = if y = x then { value := v, written := true } else s.operand y := by
  cases x <;> cases y <;> rfl

/-! ### operand -/

@[simp] theorem operand_A : s.operand .A = s.a := rfl
@[simp] theorem operand_B : s.operand .B = s.b := rfl
@[simp] theorem operand_C : s.operand .C = s.c := rfl
@[simp] theorem operand_D : s.operand .D = s.d := rfl

/-! ### withFetchWord -/

@[simp] theorem withFetchWord_a (nbits w : Nat) : (s.withFetchWord nbits w).a = s.a := rfl
@[simp] theorem withFetchWord_b (nbits w : Nat) : (s.withFetchWord nbits w).b = s.b := rfl
@[simp] theorem withFetchWord_c (nbits w : Nat) : (s.withFetchWord nbits w).c = s.c := rfl
@[simp] theorem withFetchWord_d (nbits w : Nat) : (s.withFetchWord nbits w).d = s.d := rfl
@[simp] theorem withFetchWord_cmd (nbits w : Nat) : (s.withFetchWord nbits w).cmd = s.cmd := rfl
@[simp] theorem withFetchWord_hi (nbits w : Nat) : (s.withFetchWord nbits w).hi = s.hi := rfl
@[simp] theorem withFetchWord_lo (nbits w : Nat) : (s.withFetchWord nbits w).lo = s.lo := rfl
@[simp] theorem withFetchWord_ok (nbits w : Nat) : (s.withFetchWord nbits w).ok = s.ok := rfl
@[simp] theorem withFetchWord_err (nbits w : Nat) : (s.withFetchWord nbits w).err = s.err := rfl
@[simp] theorem withFetchWord_sticky (nbits w : Nat) : (s.withFetchWord nbits w).sticky = s.sticky := rfl
@[simp] theorem withFetchWord_buf (nbits w : Nat) : (s.withFetchWord nbits w).buf = s.buf := rfl
@[simp] theorem withFetchWord_faults (nbits w : Nat) : (s.withFetchWord nbits w).faults = s.faults := rfl
@[simp] theorem withFetchWord_hpc (nbits w : Nat) : (s.withFetchWord nbits w).hpc = s.hpc := rfl
@[simp] theorem withFetchWord_bufBytes (nbits w : Nat) : (s.withFetchWord nbits w).bufBytes = s.bufBytes := rfl
@[simp] theorem withFetchWord_pending (nbits w : Nat) : (s.withFetchWord nbits w).pending = .regWrite 4 (word (w % 2 ^ nbits)) :: s.pending := rfl
@[simp] theorem withFetchWord_answer (nbits w : Nat) : (s.withFetchWord nbits w).answer = s.answer := rfl
@[simp] theorem withFetchWord_draws (nbits w : Nat) : (s.withFetchWord nbits w).draws = s.draws := rfl

end Sys2Proof.Machine
end

