-- ==== Sys2Proof/Laws/Memory.lean ====
section
/-! SUPPORT. The laws of BUF (20_memory.md R51–R54, R67): a read after a write, the canonical form and the range
of addresses kept by every write, and what reading and writing a whole ByteString does. -/

namespace Sys2Proof.Machine

/-- R52: a read after a write gives the byte written at that address and the old byte everywhere else. -/
theorem Memory.read_write (m : Memory) (addr addr' : Nat) (b : Byte) :
    (m.write addr b).read addr' = if addr' = addr then some b else m.read addr' := by
  induction m with
  | nil => simp only [Memory.write, Memory.read, eq_comm]
  | cons c m ih =>
    obtain ⟨k, x⟩ := c
    simp only [Memory.write]
    split
    · simp only [Memory.read, eq_comm]
    · split
      · next h => subst h; by_cases h' : addr = addr' <;> simp [Memory.read, h', eq_comm]
      · next h1 h2 =>
        simp only [Memory.read, ih]
        by_cases hk : k = addr' <;> simp [hk]
        intro h; omega

/-- An entry of a written buffer is the new byte or an old entry. -/
theorem Memory.mem_write (m : Memory) (addr : Nat) (b : Byte) (c : Host.Cell) (h : c ∈ m.write addr b) :
    c = (addr, b) ∨ c ∈ m := by
  induction m with
  | nil => simpa [Memory.write] using h
  | cons e m ih =>
    obtain ⟨k, x⟩ := e
    simp only [Memory.write] at h
    split at h
    · simpa using h
    · split at h
      · simp only [List.mem_cons] at h ⊢; tauto
      · simp only [List.mem_cons] at h ⊢
        rcases h with h | h
        · exact Or.inr (Or.inl h)
        · exact (ih h).imp_right Or.inr

/-- R51: a write keeps the canonical form. -/
theorem Memory.write_wf (m : Memory) (addr : Nat) (b : Byte) (h : m.wf) : (m.write addr b).wf := by
  induction m with
  | nil => simp [Memory.write]
  | cons e m ih =>
    obtain ⟨k, x⟩ := e
    obtain ⟨hk, hm⟩ := List.pairwise_cons.mp h
    simp only [Memory.write]
    split
    · next hlt =>
      refine List.pairwise_cons.mpr ⟨fun c hc => ?_, h⟩
      rcases List.mem_cons.mp hc with rfl | hc
      · exact hlt
      · exact Nat.lt_trans hlt (hk c hc)
    · split
      · next heq => subst heq; exact List.pairwise_cons.mpr ⟨hk, hm⟩
      · refine List.pairwise_cons.mpr ⟨fun c hc => ?_, ih hm⟩
        rcases Memory.mem_write m addr b c hc with rfl | hc
        · show k < addr; omega
        · exact hk c hc

/-- R67: writing a ByteString keeps the canonical form. -/
theorem Memory.writeBytes_wf (bs : List Byte) : ∀ (m : Memory) (addr : Nat), m.wf → (m.writeBytes addr bs).wf := by
  induction bs with
  | nil => intro m addr h; exact h
  | cons b bs ih => intro m addr h; exact ih _ _ (Memory.write_wf m addr b h)

/-- R52: a write below a bound keeps every address below it. -/
theorem Memory.write_inRange (m : Memory) (addr n : Nat) (b : Byte) (ha : addr < n) (h : ∀ c ∈ m, c.1 < n) :
    ∀ c ∈ m.write addr b, c.1 < n := by
  intro c hc
  rcases Memory.mem_write m addr b c hc with rfl | hc
  · exact ha
  · exact h c hc

/-- R67: a ByteString written below a bound keeps every address below it. -/
theorem Memory.writeBytes_inRange (bs : List Byte) : ∀ (m : Memory) (addr n : Nat), addr + bs.length ≤ n →
    (∀ c ∈ m, c.1 < n) → ∀ c ∈ m.writeBytes addr bs, c.1 < n := by
  induction bs with
  | nil => intro m addr n _ h; exact h
  | cons b bs ih =>
    intro m addr n hb h
    simp only [List.length_cons] at hb
    exact ih _ _ n (by omega) (Memory.write_inRange m addr n b (by omega) h)

/-- R54: after a ByteString is written, each address of its range reads its byte, and every other address reads
as before. -/
theorem Memory.read_writeBytes (bs : List Byte) : ∀ (m : Memory) (addr addr' : Nat),
    (m.writeBytes addr bs).read addr' =
      if addr ≤ addr' then (bs[addr' - addr]?).or (m.read addr') else m.read addr' := by
  induction bs with
  | nil => intro m addr addr'; simp [Memory.writeBytes]
  | cons b bs ih =>
    intro m addr addr'
    simp only [Memory.writeBytes, ih, Memory.read_write]
    rcases Nat.lt_trichotomy addr' addr with h | h | h
    · simp [show ¬ addr + 1 ≤ addr' by omega, show ¬ addr ≤ addr' by omega, show addr' ≠ addr by omega]
    · subst h; simp
    · obtain ⟨j, hj⟩ : ∃ j, addr' - addr = j + 1 := ⟨addr' - addr - 1, by omega⟩
      have hj' : addr' - (addr + 1) = j := by omega
      simp [show addr + 1 ≤ addr' by omega, show addr ≤ addr' by omega, show addr' ≠ addr by omega, hj, hj']

/-- R54: an address outside the written range reads as before. -/
theorem Memory.read_writeBytes_outside (bs : List Byte) (m : Memory) (addr addr' : Nat)
    (h : addr' < addr ∨ addr + bs.length ≤ addr') : (m.writeBytes addr bs).read addr' = m.read addr' := by
  rw [Memory.read_writeBytes]
  split
  · rw [List.getElem?_eq_none (by omega), Option.none_or]
  · rfl

/-- R53: reading a range gives its bytes when every byte of it is written. -/
theorem Memory.readBytes_ok (m : Memory) (n : Nat) : ∀ (addr : Nat) (bs : List Byte),
    m.readBytes addr n = .ok bs ↔ bs.length = n ∧ ∀ i, i < n → m.read (addr + i) = bs[i]? := by
  induction n with
  | zero =>
    intro addr bs
    simp only [Memory.readBytes, Except.ok.injEq]
    constructor
    · rintro rfl; simp
    · rintro ⟨h, _⟩; exact (List.length_eq_zero_iff.mp h).symm
  | succ n ih =>
    intro addr bs
    simp only [Memory.readBytes]
    constructor
    · intro h
      split at h
      · cases h
      · next b hb =>
        split at h
        · cases h
        · next bs' hbs =>
          obtain ⟨hlen, hall⟩ := (ih (addr + 1) bs').mp hbs
          cases h
          refine ⟨by simp [hlen], fun i hi => ?_⟩
          cases i with
          | zero => simpa using hb
          | succ i =>
            have := hall i (by omega)
            rw [show addr + (i + 1) = addr + 1 + i by omega, this]; simp
    · rintro ⟨hlen, hall⟩
      obtain ⟨b, bs', rfl⟩ : ∃ b bs', bs = b :: bs' := by
        cases bs with
        | nil => simp at hlen
        | cons b bs' => exact ⟨b, bs', rfl⟩
      have h0 : m.read addr = some b := by simpa using hall 0 (by omega)
      have htail : m.readBytes (addr + 1) n = .ok bs' := by
        refine (ih (addr + 1) bs').mpr ⟨by simpa using hlen, fun i hi => ?_⟩
        have := hall (i + 1) (by omega)
        rw [show addr + 1 + i = addr + (i + 1) by omega, this]; simp
      rw [h0, htail]

/-- R269: a read of a range ends at the first unwritten byte of it. -/
theorem Memory.readBytes_error (m : Memory) (n : Nat) : ∀ (addr x : Nat),
    m.readBytes addr n = .error x ↔
      addr ≤ x ∧ x < addr + n ∧ m.read x = none ∧ ∀ y, addr ≤ y → y < x → m.read y ≠ none := by
  induction n with
  | zero => intro addr x; simp only [Memory.readBytes, reduceCtorEq, false_iff]; omega
  | succ n ih =>
    intro addr x
    simp only [Memory.readBytes]
    constructor
    · intro h
      split at h
      · next hb => cases h; exact ⟨Nat.le_refl _, by omega, hb, fun y h1 h2 => absurd h1 (by omega)⟩
      · next b hb =>
        split at h
        · next x' hx =>
          cases h
          obtain ⟨h1, h2, h3, h4⟩ := (ih (addr + 1) x).mp hx
          refine ⟨by omega, by omega, h3, fun y hy1 hy2 => ?_⟩
          by_cases hy : y = addr
          · subst hy; simp [hb]
          · exact h4 y (by omega) hy2
        · cases h
    · rintro ⟨h1, h2, h3, h4⟩
      by_cases hx : x = addr
      · subst hx; rw [h3]
      · cases hb : m.read addr with
        | none => exact absurd hb (h4 addr (Nat.le_refl _) (by omega))
        | some b =>
          have : m.readBytes (addr + 1) n = .error x :=
            (ih (addr + 1) x).mpr ⟨by omega, by omega, h3, fun y hy1 hy2 => h4 y (by omega) hy2⟩
          rw [this]

/-- R290: the buffer after reset is in canonical form. -/
theorem State.reset_buf_wf : State.reset.buf.wf := List.Pairwise.nil

/-- R290: the host's reset leaves a buffer in canonical form. -/
theorem applyReset_buf_wf (s : State) : (applyReset s).buf.wf := List.Pairwise.nil

/-- R67: the BUF write of a success commit keeps the canonical form. -/
theorem applyWrite_wf (w : Option (Nat × List Byte)) (m : Memory) (h : m.wf) : (applyWrite w m).wf := by
  cases w with
  | none => exact h
  | some w => exact Memory.writeBytes_wf w.2 m w.1 h

/-! ### ByteString values -/

@[simp] theorem beBytes_length (v n : Nat) : (beBytes v n).length = n := by
  induction n with
  | zero => rfl
  | succ n ih => simp [beBytes, ih]

/-- R54: byte i of an n-byte encoding is `(v div 256^(n−1−i)) mod 256`. -/
theorem beBytes_getElem? (v n i : Nat) (hi : i < n) :
    (beBytes v n)[i]? = some (BitVec.ofNat 8 (v / 256 ^ (n - 1 - i))) := by
  induction n generalizing i with
  | zero => omega
  | succ n ih =>
    cases i with
    | zero => simp [beBytes]
    | succ i =>
      simp only [beBytes, List.getElem?_cons_succ]
      rw [ih i (by omega)]
      congr 4; omega

/-- R53: a ByteString of n bytes is below 256^n. -/
theorem beValue_lt (bs : List Byte) : beValue bs < 256 ^ bs.length := by
  induction bs with
  | nil => simp [beValue]
  | cons b bs ih =>
    have hb := b.isLt
    simp only [beValue, List.length_cons, Nat.pow_succ]
    nlinarith

/-- R10: encoding in n bytes and reading back gives the value modulo 256^n. -/
theorem beValue_beBytes (v n : Nat) : beValue (beBytes v n) = v % 256 ^ n := by
  induction n with
  | zero => simp [beBytes, beValue, Nat.mod_one]
  | succ n ih =>
    simp only [beBytes, beValue, ih, beBytes_length, BitVec.toNat_ofNat]
    have hsplit := Nat.mod_mul (x := v) (a := 256 ^ n) (b := 256)
    rw [Nat.pow_succ 256 n, hsplit, Nat.add_comm, Nat.mul_comm (256 ^ n)]

end Sys2Proof.Machine
end

