-- ==== Sys2Proof/Laws/Exec.lean ====
section
/-! SUPPORT. What each shared operation behind the commands can do: the operand forms (30_encoding.md R77, R78;
60_exceptions.md R269), the results, the commit (R79–R81, R262), and the meaning of each command as one commit. -/

namespace Sys2Proof.Machine

/-! ### Operand forms -/

/-- R12: a written operand register hands its value on. -/
theorem withOperand_written (x : OperandName) (s : State) (v : Word) (k : Word → OpOutcome) (h : s.Holds x v) :
    withOperand x s k = k v := by simp [withOperand, show s.operand x = _ from h]

/-- R269: an unwritten operand register ends the command in its model fault. -/
theorem withOperand_unwritten (x : OperandName) (s : State) (k : Word → OpOutcome)
    (h : (s.operand x).written = false) : withOperand x s k = .modelFault (.uninitOperand x) := by
  simp [withOperand, h]

/-- R12, R269: all an operand read can do: hand the value of a written register on, or end in its model fault. -/
theorem withOperand_cases (x : OperandName) (s : State) (k : Word → OpOutcome) :
    ((s.operand x).written = true ∧ withOperand x s k = k (s.operand x).value) ∨
    ((s.operand x).written = false ∧ withOperand x s k = .modelFault (.uninitOperand x)) := by
  unfold withOperand
  cases (s.operand x).written <;> simp

/-- R33: an operand read is the same in two states in which the host has written the same, whatever Word an
unwritten register holds. -/
theorem withOperand_congr (x : OperandName) (s u : State) (k k' : Word → OpOutcome)
    (h : ∀ w, s.Holds x w ↔ u.Holds x w) (hk : ∀ v, s.Holds x v → k v = k' v) :
    withOperand x s k = withOperand x u k' := by
  have holds (t : State) (ht : (t.operand x).written = true) : t.Holds x (t.operand x).value := by
    rw [State.Holds, ← ht]
  cases hw : (s.operand x).written with
  | true =>
    have hs := holds s hw
    rw [withOperand_written x s _ k hs, withOperand_written x u _ k' ((h _).mp hs), hk _ hs]
  | false =>
    cases hu : (u.operand x).written with
    | true => simp [show s.operand x = _ from (h _).mpr (holds u hu)] at hw
    | false => rw [withOperand_unwritten x s k hw, withOperand_unwritten x u k' hu]

theorem withA_holds (s : State) (a : Word) (rule : Word → OpOutcome) (ha : s.Holds .A a) :
    withA s rule = rule a := withOperand_written _ _ _ _ ha

theorem withAB_holds (s : State) (a b : Word) (rule : Word → Word → OpOutcome) (ha : s.Holds .A a)
    (hb : s.Holds .B b) : withAB s rule = rule a b := by
  rw [withAB, withOperand_written _ _ _ _ ha, withOperand_written _ _ _ _ hb]

theorem withABC_holds (s : State) (a b c : Word) (rule : Word → Word → Word → OpOutcome) (ha : s.Holds .A a)
    (hb : s.Holds .B b) (hc : s.Holds .C c) : withABC s rule = rule a b c := by
  rw [withABC, withOperand_written _ _ _ _ ha, withOperand_written _ _ _ _ hb, withOperand_written _ _ _ _ hc]

theorem withABCD_holds (s : State) (a b c d : Word) (rule : Word → Word → Word → Word → OpOutcome)
    (ha : s.Holds .A a) (hb : s.Holds .B b) (hc : s.Holds .C c) (hd : s.Holds .D d) :
    withABCD s rule = rule a b c d := by
  rw [withABCD, withOperand_written _ _ _ _ ha, withOperand_written _ _ _ _ hb, withOperand_written _ _ _ _ hc,
    withOperand_written _ _ _ _ hd]

@[simp] theorem withRounding_mode (r : Rounding) (k : Rounding → OpOutcome) : withRounding (.mode r) k = k r := rfl

@[simp] theorem withRounding_reserved (n : Fin 4) (k : Rounding → OpOutcome) :
    withRounding (.reserved n) k = .raise .domain := rfl

/-- R170: the predicate holds of Ceil and Expand and of no other Rounding. -/
theorem roundsUp_iff (r : Rounding) : roundsUp r = true ↔ r = .ceil ∨ r = .expand := by
  cases r <;> simp [roundsUp]

/-! ### Descriptors -/

/-- R78: the two fields of an input descriptor as numbers, and when it is valid. -/
theorem inputDescriptor_eq (n : Nat) (v : Word) :
    inputDescriptor n v =
      if v.toNat / 2 ^ 64 ≠ 0 ∨ n < v.toNat % 2 ^ 32 + v.toNat / 2 ^ 32 % 2 ^ 32 then none
      else some (v.toNat % 2 ^ 32, v.toNat / 2 ^ 32 % 2 ^ 32) := by
  have hv := v.isLt
  have h0 : (v.extractLsb' 64 192 ≠ 0) ↔ v.toNat / 2 ^ 64 ≠ 0 := by
    rw [Ne, Ne, ← BitVec.toNat_inj]
    simp only [BitVec.extractLsb'_toNat, Nat.shiftRight_eq_div_pow]
    rw [Nat.mod_eq_of_lt (by omega)]
    simp
  simp only [inputDescriptor, BitVec.extractLsb'_toNat, Nat.shiftRight_eq_div_pow, h0, Nat.pow_zero, Nat.div_one,
    gt_iff_lt]

/-- R78: the offset of an output descriptor as a number, and when it is valid. -/
theorem outputDescriptor_eq (n len : Nat) (v : Word) :
    outputDescriptor n len v =
      if v.toNat / 2 ^ 32 ≠ 0 ∨ n < v.toNat % 2 ^ 32 + len then none else some (v.toNat % 2 ^ 32) := by
  have hv := v.isLt
  have h0 : (v.extractLsb' 32 224 ≠ 0) ↔ v.toNat / 2 ^ 32 ≠ 0 := by
    rw [Ne, Ne, ← BitVec.toNat_inj]
    simp only [BitVec.extractLsb'_toNat, Nat.shiftRight_eq_div_pow]
    rw [Nat.mod_eq_of_lt (by omega)]
    simp
  simp only [outputDescriptor, BitVec.extractLsb'_toNat, Nat.shiftRight_eq_div_pow, h0, Nat.pow_zero, Nat.div_one,
    gt_iff_lt]

/-- R53: a range whose bytes are all written hands its big-endian value on. -/
theorem withMem_holds (s : State) (addr : Nat) (bs : List Byte) (k : Nat → OpOutcome) (h : s.HoldsBytes addr bs) :
    withMem s.buf addr bs.length k = k (beValue bs) := by
  have : s.buf.readBytes addr bs.length = .ok bs := (Memory.readBytes_ok _ _ _ _).mpr ⟨rfl, h⟩
  rw [withMem, this]

/-- R78: all an input descriptor can do: end in BAD_DESCRIPTOR, or name a range inside BUF. -/
theorem withInput_cases (n : Nat) (v : Word) (k : Nat → Nat → OpOutcome) :
    withInput n v k = .raise .badDescriptor ∨
    (v.toNat % 2 ^ 32 + v.toNat / 2 ^ 32 % 2 ^ 32 ≤ n ∧
      withInput n v k = k (v.toNat % 2 ^ 32) (v.toNat / 2 ^ 32 % 2 ^ 32)) := by
  unfold withInput
  rw [inputDescriptor_eq]
  by_cases h : v.toNat / 2 ^ 64 ≠ 0 ∨ n < v.toNat % 2 ^ 32 + v.toNat / 2 ^ 32 % 2 ^ 32
  · rw [if_pos h]; exact .inl rfl
  · rw [if_neg h]; exact .inr ⟨by omega, rfl⟩

/-- R78: all an output descriptor can do: end in BAD_DESCRIPTOR, or name a range inside BUF. -/
theorem withOutput_cases (n len : Nat) (v : Word) (k : Nat → OpOutcome) :
    withOutput n len v k = .raise .badDescriptor ∨
    (v.toNat % 2 ^ 32 + len ≤ n ∧ withOutput n len v k = k (v.toNat % 2 ^ 32)) := by
  unfold withOutput
  rw [outputDescriptor_eq]
  by_cases h : v.toNat / 2 ^ 32 ≠ 0 ∨ n < v.toNat % 2 ^ 32 + len
  · rw [if_pos h]; exact .inl rfl
  · rw [if_neg h]; exact .inr ⟨by omega, rfl⟩

/-- R53, R269: all a read of a range can do: hand its value on, or end at an unwritten byte. -/
theorem withMem_cases (m : Memory) (addr n : Nat) (k : Nat → OpOutcome) :
    (∃ x, withMem m addr n k = .modelFault (.uninitBuffer x)) ∨
    ∃ bs, m.readBytes addr n = .ok bs ∧ withMem m addr n k = k (beValue bs) := by
  unfold withMem
  cases h : m.readBytes addr n with
  | error x => exact .inl ⟨x, rfl⟩
  | ok bs => exact .inr ⟨bs, rfl, rfl⟩

/-! ### Results and commits -/

@[simp] theorem word_toNat (n : Nat) : (word n).toNat = n % 2 ^ 256 := BitVec.toNat_ofNat ..

theorem commit_success (r : WideWord) (w : Option (Nat × List Byte)) (s : State) :
    commit (.success r w) s = { s with hi := r.high, lo := r.low, ok := true, err := 0, buf := applyWrite w s.buf } :=
  rfl

/-- R80: the commit of a single Word. -/
theorem commit_wordResult (n : Nat) (s : State) :
    commit (wordResult n) s = { s with hi := 0, lo := word n, ok := true, err := 0 } := rfl

/-- R80: the commit of a double-width value. -/
theorem commit_wideResult (n : Nat) (s : State) :
    commit (wideResult n) s =
      { s with hi := word (n / 2 ^ 256), lo := word (n % 2 ^ 256), ok := true, err := 0 } := rfl

/-- R81. -/
theorem commit_tryFail (s : State) : commit .tryFail s = { s with hi := 0, lo := 0, ok := false, err := 0 } := rfl

/-- R262. -/
theorem commit_raise (e : StrictError) (s : State) :
    commit (.raise e) s = { s with ok := false, err := e.code, sticky := true } := rfl

/-- R268, R269. -/
theorem commit_modelFault (f : ModelFault) (s : State) :
    commit (.modelFault f) s = { s with faults := s.faults ++ [f] } := rfl

theorem fittingResult_fits (o : OpOutcome) (n : Nat) (h : n < 2 ^ 256) : fittingResult o n = wordResult n := by
  rw [fittingResult, if_neg (by omega)]

theorem fittingResult_overflows (o : OpOutcome) (n : Nat) (h : 2 ^ 256 ≤ n) : fittingResult o n = o := by
  rw [fittingResult, if_pos h]

/-- R102, R132: all a checked result can do. -/
theorem fittingResult_cases (o : OpOutcome) (n : Nat) :
    (n < 2 ^ 256 ∧ fittingResult o n = wordResult n) ∨ (2 ^ 256 ≤ n ∧ fittingResult o n = o) := by
  by_cases h : n < 2 ^ 256
  · exact .inl ⟨h, fittingResult_fits o n h⟩
  · exact .inr ⟨by omega, fittingResult_overflows o n (by omega)⟩

/-- R30: the codes of the strict failures are 1 to 5. -/
theorem StrictError.code_mem (e : StrictError) : e.code ∈ ([1, 2, 3, 4, 5] : List (BitVec 3)) := by
  cases e <;> decide

/-! ### Each command is one commit -/

/-- R79: the outcome of each command in a state, before its commit. -/
def outcomeOf (i : Instr) (s : State) : OpOutcome :=
  match i with
  | .add512 => withAB s fun a b => wideResult (a.toNat + b.toNat)
  | .mul512 => withAB s fun a b => wideResult (a.toNat * b.toNat)
  | .tryAdd => withAB s fun a b => fittingResult .tryFail (a.toNat + b.toNat)
  | .tryMul => withAB s fun a b => fittingResult .tryFail (a.toNat * b.toNat)
  | .ceilDiv => withAB s (ceilDivRule (.raise .divisionByZero))
  | .tryCeilDiv => withAB s (ceilDivRule .tryFail)
  | .mulDiv => withABC s (mulDivRule (.raise .divisionByZero) (.raise .overflow) false)
  | .tryMulDiv => withABC s (mulDivRule .tryFail .tryFail false)
  | .mulDivR rnd => withRounding rnd fun r =>
      withABC s (mulDivRule (.raise .divisionByZero) (.raise .overflow) (roundsUp r))
  | .tryMulDivR rnd => withRounding rnd fun r => withABC s (mulDivRule .tryFail .tryFail (roundsUp r))
  | .sqrt rnd => withRounding rnd fun r => withA s (sqrtRule r)
  | .log2 rnd => withRounding rnd fun r => withA s (logRule 2 r)
  | .log10 rnd => withRounding rnd fun r => withA s (logRule 10 r)
  | .log256 rnd => withRounding rnd fun r => withA s (logRule 256 r)
  | .roundsUp rnd => withRounding rnd fun r => wordResult (if roundsUp r then 1 else 0)
  | .clz => withA s fun x => wordResult (leadingZeros x.toNat)
  | .invMod => withAB s invModRule
  | .modExp => withABC s (modExpRule (.raise .divisionByZero))
  | .tryModExp => withABC s (modExpRule .tryFail)
  | .modExpB => withABCD s (modExpBRule (.raise .divisionByZero) s.bufBytes s.buf)
  | .tryModExpB => withABCD s (modExpBRule .tryFail s.bufBytes s.buf)

/-- R79: a command's step is the commit of its outcome; it always answers a next state. -/
theorem exec_eq_commit (i : Instr) (s : State) : exec i s = .next (commit (outcomeOf i s) s) := by
  cases i <;> rfl

end Sys2Proof.Machine
end

