-- ==== Sys2Proof/Laws/PerInstr.lean ====
section
/-! SUPPORT. Statements about every command, made per constructor of Instr. -/

namespace Sys2Proof.Laws.EncodedFields

/-- R70, R73: the encoded word of a command holds its operation code in OP, its RND code in RND, and 0 in every
reserved bit; a command that is not well formed has an RND code of 4 to 7. -/
def Statement (i : Instr) : Prop :=
  reservedField (encode i) = 0 ∧ rndField (encode i) = i.rndCode ∧ opField (encode i) = i.op.code ∧
  (i.wellFormed = false ↔ 4 ≤ i.rndCode.toNat)

theorem add512 : Statement .add512 :=
  ⟨reservedField_encode _, rndField_encode _, opField_encode _, by decide⟩

theorem mul512 : Statement .mul512 :=
  ⟨reservedField_encode _, rndField_encode _, opField_encode _, by decide⟩

theorem tryAdd : Statement .tryAdd :=
  ⟨reservedField_encode _, rndField_encode _, opField_encode _, by decide⟩

theorem tryMul : Statement .tryMul :=
  ⟨reservedField_encode _, rndField_encode _, opField_encode _, by decide⟩

theorem ceilDiv : Statement .ceilDiv :=
  ⟨reservedField_encode _, rndField_encode _, opField_encode _, by decide⟩

theorem tryCeilDiv : Statement .tryCeilDiv :=
  ⟨reservedField_encode _, rndField_encode _, opField_encode _, by decide⟩

theorem mulDiv : Statement .mulDiv :=
  ⟨reservedField_encode _, rndField_encode _, opField_encode _, by decide⟩

theorem tryMulDiv : Statement .tryMulDiv :=
  ⟨reservedField_encode _, rndField_encode _, opField_encode _, by decide⟩

theorem mulDivR (rnd : RndField) : Statement (.mulDivR rnd) :=
  ⟨reservedField_encode _, rndField_encode _, opField_encode _, RndField.wellFormed_false_iff rnd⟩

theorem tryMulDivR (rnd : RndField) : Statement (.tryMulDivR rnd) :=
  ⟨reservedField_encode _, rndField_encode _, opField_encode _, RndField.wellFormed_false_iff rnd⟩

theorem sqrt (rnd : RndField) : Statement (.sqrt rnd) :=
  ⟨reservedField_encode _, rndField_encode _, opField_encode _, RndField.wellFormed_false_iff rnd⟩

theorem log2 (rnd : RndField) : Statement (.log2 rnd) :=
  ⟨reservedField_encode _, rndField_encode _, opField_encode _, RndField.wellFormed_false_iff rnd⟩

theorem log10 (rnd : RndField) : Statement (.log10 rnd) :=
  ⟨reservedField_encode _, rndField_encode _, opField_encode _, RndField.wellFormed_false_iff rnd⟩

theorem log256 (rnd : RndField) : Statement (.log256 rnd) :=
  ⟨reservedField_encode _, rndField_encode _, opField_encode _, RndField.wellFormed_false_iff rnd⟩

theorem roundsUp (rnd : RndField) : Statement (.roundsUp rnd) :=
  ⟨reservedField_encode _, rndField_encode _, opField_encode _, RndField.wellFormed_false_iff rnd⟩

theorem clz : Statement .clz :=
  ⟨reservedField_encode _, rndField_encode _, opField_encode _, by decide⟩

theorem invMod : Statement .invMod :=
  ⟨reservedField_encode _, rndField_encode _, opField_encode _, by decide⟩

theorem modExp : Statement .modExp :=
  ⟨reservedField_encode _, rndField_encode _, opField_encode _, by decide⟩

theorem tryModExp : Statement .tryModExp :=
  ⟨reservedField_encode _, rndField_encode _, opField_encode _, by decide⟩

theorem modExpB : Statement .modExpB :=
  ⟨reservedField_encode _, rndField_encode _, opField_encode _, by decide⟩

theorem tryModExpB : Statement .tryModExpB :=
  ⟨reservedField_encode _, rndField_encode _, opField_encode _, by decide⟩

end Sys2Proof.Laws.EncodedFields
end

