-- ==== Sys2Proof/Laws/Step.lean ====
section
/-! SUPPORT. What each host transaction can do (20_memory.md R52, R55, R58) and the command cycle (30_encoding.md
R79), as the step performs them. -/

namespace Sys2Proof.Machine

/-- R63: with a transaction pending, the step takes it and performs it. -/
theorem step_pending (s : State) (t : HostTxn) (rest : List HostTxn) (h : s.pending = t :: rest) :
    step s = transact t (accept rest s) := by simp [step, hostStep, h]

/-- R58: the indices from 9 upward are unmapped. -/
theorem RegName.ofIndex_unmapped (n : Nat) (h : 9 ≤ n) : RegName.ofIndex n = none := by
  obtain ⟨k, rfl⟩ := Nat.exists_eq_add_of_le' h
  rfl

/-- R20: a register's index names that register. -/
@[simp] theorem RegName.ofIndex_operand (x : OperandName) :
    RegName.ofIndex (match x with | .A => 0 | .B => 1 | .C => 2 | .D => 3) = some (.operand x) := by
  cases x <;> rfl

/-- R79: a CMD write ends in the commit of one outcome on the state with the word in CMD. -/
theorem executeCommand_commit (v : Word) (s : State) :
    ∃ o : OpOutcome, executeCommand v s = .next (commit o { s with cmd := v }) ∧
      (decode v = .illegal → o = .raise .illegalCommand) ∧
      (∀ i, decode v = .domain i → o = .raise .domain) ∧
      (∀ i, decode v = .op i → o = outcomeOf i { s with cmd := v }) := by
  unfold executeCommand
  cases h : decode v with
  | illegal => exact ⟨.raise .illegalCommand, rfl, fun _ => rfl, by simp, by simp⟩
  | domain i => exact ⟨.raise .domain, rfl, by simp, fun _ _ => rfl, by simp⟩
  | op i => exact ⟨_, exec_eq_commit i _, by simp, by simp, fun j hj => by cases hj; rfl⟩

end Sys2Proof.Machine
end

