-- ==== Sys2Proof/Tests/Slice0.lean ====
section
/-! SUPPORT. Tests of the model against words and vectors of the spec (30_encoding.md R75; 95_test_vectors.md), and
the witnesses of the statements' hypotheses. Every expected value is the spec's; each test's comment names its
source. -/

namespace Sys2Proof.Tests

open Sys2Proof Sys2Proof.Machine

/-! ### WellFormed: an ill-formed term for each check (R72) -/

theorem test_wellFormed_refuses_mulDivR : (Instr.mulDivR (.reserved 0)).wellFormed = false := by decide
theorem test_wellFormed_refuses_tryMulDivR : (Instr.tryMulDivR (.reserved 3)).wellFormed = false := by decide
theorem test_wellFormed_refuses_sqrt : (Instr.sqrt (.reserved 0)).wellFormed = false := by decide
theorem test_wellFormed_refuses_log2 : (Instr.log2 (.reserved 1)).wellFormed = false := by decide
theorem test_wellFormed_refuses_log10 : (Instr.log10 (.reserved 2)).wellFormed = false := by decide
theorem test_wellFormed_refuses_log256 : (Instr.log256 (.reserved 3)).wellFormed = false := by decide
theorem test_wellFormed_refuses_roundsUp : (Instr.roundsUp (.reserved 0)).wellFormed = false := by decide

/-! ### Decode: every command's word, written out bit by bit as `00000 rrr oooooooo` (R70, R72, R75) -/

theorem test_decode_add512 : decode 0b00000_000_00000001 = .op .add512 := by decide
theorem test_decode_mul512 : decode 0b00000_000_00000010 = .op .mul512 := by decide
theorem test_decode_tryAdd : decode 0b00000_000_00000011 = .op .tryAdd := by decide
theorem test_decode_tryMul : decode 0b00000_000_00000100 = .op .tryMul := by decide
theorem test_decode_ceilDiv : decode 0b00000_000_00010000 = .op .ceilDiv := by decide
theorem test_decode_tryCeilDiv : decode 0b00000_000_00010001 = .op .tryCeilDiv := by decide
theorem test_decode_mulDiv : decode 0b00000_000_00010010 = .op .mulDiv := by decide
theorem test_decode_tryMulDiv : decode 0b00000_000_00010011 = .op .tryMulDiv := by decide
theorem test_decode_mulDivR_expand : decode 0b00000_011_00010100 = .op (.mulDivR (.mode .expand)) := by decide
theorem test_decode_tryMulDivR_ceil : decode 0b00000_001_00010101 = .op (.tryMulDivR (.mode .ceil)) := by decide
theorem test_decode_sqrt_trunc : decode 0b00000_010_00100000 = .op (.sqrt (.mode .trunc)) := by decide
theorem test_decode_log2_ceil : decode 0b00000_001_00100001 = .op (.log2 (.mode .ceil)) := by decide
theorem test_decode_log10_floor : decode 0b00000_000_00100010 = .op (.log10 (.mode .floor)) := by decide
theorem test_decode_log256_expand : decode 0b00000_011_00100011 = .op (.log256 (.mode .expand)) := by decide
theorem test_decode_roundsUp_trunc : decode 0b00000_010_00100100 = .op (.roundsUp (.mode .trunc)) := by decide
theorem test_decode_clz : decode 0b00000_000_00110000 = .op .clz := by decide
theorem test_decode_invMod : decode 0b00000_000_01000000 = .op .invMod := by decide
theorem test_decode_modExp : decode 0b00000_000_01000001 = .op .modExp := by decide
theorem test_decode_tryModExp : decode 0b00000_000_01000010 = .op .tryModExp := by decide
theorem test_decode_modExpB : decode 0b00000_000_01000011 = .op .modExpB := by decide
theorem test_decode_tryModExpB : decode 0b00000_000_01000100 = .op .tryModExpB := by decide
/-- U5: word 0x0424. -/
theorem test_decode_domain : decode 0b00000_100_00100100 = .domain (.roundsUp (.reserved 0)) := by decide
/-- E1, E2, E3, E4, E6, E7. -/
theorem test_decode_illegal : decode 0 = .illegal ∧ decode 0x05 = .illegal ∧ decode 0xFF = .illegal ∧
    decode 0x101 = .illegal ∧ decode 0x800 = .illegal ∧ decode (word (2 ^ 255 + 1)) = .illegal := by decide
theorem test_decodeTableWord : decodeTableWord 256 0x114 = some (.mulDivR (.mode .ceil)) := by decide

/-! ### The assembler (95_test_vectors.md section 7, R83) -/

theorem test_assemble_commands :
    (assembleCommand "SQRT" (some "CEIL")).map encode = some 0x120 ∧
    (assembleCommand "LOG10" none).map encode = some 0x22 ∧
    (assembleCommand "MODEXPB" none).map encode = some 0x43 ∧
    assembleCommand "ADD512" (some "CEIL") = none := by decide

/-- R84's examples and R82's forms, as text. -/
theorem test_assemble_text :
    assembleText "cmd SQRT.CEIL ; = wr CMD, 0x120\nwr CMD, 0x114\n\nreset".toList =
      some [.regWrite 4 0x120, .regWrite 4 0x114, .reset] ∧
    assembleText "wr A, 2^256 - 1\nrd LO ; = 1\nwrb 3, 0x07\nrdb 3\ncmd MODEXPB".toList =
      some [.regWrite 0 (word (2 ^ 256 - 1)), .regRead 6, .bufWrite 3 7, .bufRead 3, .regWrite 4 0x43] := by
  decide +kernel
theorem test_assemble_text_errors :
    assembleText "wr A, 2^256".toList = none ∧ assembleText "cmd ADD512.CEIL".toList = none ∧
    assembleText "cmd NOP".toList = none ∧ assembleText "wr E, 0".toList = none := by decide +kernel

/-! ### Commands on the spec's vectors -/

/-- A state after reset of a unit with 64 buffer bytes, with A, B and C written. -/
def withOperands (a b c : Nat) : State :=
  { State.resetWith 64 with
    a := { value := word a, written := true }, b := { value := word b, written := true },
    c := { value := word c, written := true } }

/-- HI, LO and STATUS after a command, as numbers. -/
def results (i : Instr) (s : State) : Option (Nat × Nat × Nat) :=
  match exec i s with
  | .next t => some (t.hi.toNat, t.lo.toNat, (statusWord t).toNat)
  | .fault _ => none
  | .refused _ => none

/-- S1. -/
theorem test_add512_carries : results .add512 (withOperands (2 ^ 256 - 1) 1 0) = some (1, 0, 0x01) := by decide
/-- W5. -/
theorem test_mul512_largest :
    results .mul512 (withOperands (2 ^ 256 - 1) (2 ^ 256 - 1) 0) = some (2 ^ 256 - 2, 1, 0x01) := by decide
/-- W9. -/
theorem test_tryAdd_overflow : results .tryAdd (withOperands (2 ^ 256 - 1) 1 0) = some (0, 0, 0x00) := by decide
/-- W10. -/
theorem test_tryAdd_fits :
    results .tryAdd (withOperands (2 ^ 256 - 2) 1 0) = some (0, 2 ^ 256 - 1, 0x01) := by decide
/-- W15. -/
theorem test_tryMul_overflow : results .tryMul (withOperands (2 ^ 128) (2 ^ 128) 0) = some (0, 0, 0x00) := by decide
/-- W14. -/
theorem test_tryMul_fits :
    results .tryMul (withOperands (2 ^ 128) (2 ^ 128 - 1) 0) = some (0, 2 ^ 256 - 2 ^ 128, 0x01) := by decide
/-- V4. -/
theorem test_ceilDiv_rounds_up : results .ceilDiv (withOperands 8 7 0) = some (0, 2, 0x01) := by decide
/-- V7. -/
theorem test_ceilDiv_by_zero : results .ceilDiv (withOperands 0 0 0) = some (0, 0, 0x12) := by decide
/-- V8. -/
theorem test_tryCeilDiv_by_zero : results .tryCeilDiv (withOperands 10 0 0) = some (0, 0, 0x00) := by decide
/-- V12. -/
theorem test_mulDiv_double_width :
    results .mulDiv (withOperands (2 ^ 192 + 1) (2 ^ 192 - 1) (2 ^ 128)) = some (0, 2 ^ 256 - 1, 0x01) := by decide
/-- V14. -/
theorem test_mulDiv_overflow : results .mulDiv (withOperands (2 ^ 255) 2 1) = some (0, 0, 0x14) := by decide
/-- V19. -/
theorem test_tryMulDiv_by_zero : results .tryMulDiv (withOperands 1 1 0) = some (0, 0, 0x00) := by decide
/-- V27. -/
theorem test_mulDivR_overflow_after_rounding :
    results (.mulDivR (.mode .ceil)) (withOperands (2 ^ 192 + 1) (2 ^ 192 - 1) (2 ^ 128)) =
      some (0, 0, 0x14) := by decide
/-- V24. -/
theorem test_mulDivR_expand : results (.mulDivR (.mode .expand)) (withOperands 7 3 2) = some (0, 11, 0x01) := by
  decide
/-- V32. -/
theorem test_tryMulDivR_expand :
    results (.tryMulDivR (.mode .expand)) (withOperands 10 1 4) = some (0, 3, 0x01) := by decide
/-- V33. -/
theorem test_tryMulDivR_domain :
    results (.tryMulDivR (.reserved 3)) (withOperands 10 1 4) = some (0, 0, 0x16) := by decide
/-- Q10. -/
theorem test_sqrt_ceil_largest :
    results (.sqrt (.mode .ceil)) (withOperands (2 ^ 256 - 1) 0 0) = some (0, 2 ^ 128, 0x01) := by decide
/-- Q11. -/
theorem test_sqrt_largest_square :
    results (.sqrt (.mode .expand)) (withOperands ((2 ^ 128 - 1) ^ 2) 0 0) = some (0, 2 ^ 128 - 1, 0x01) := by decide
/-- G18. -/
theorem test_log2_power : results (.log2 (.mode .ceil)) (withOperands (2 ^ 255) 0 0) = some (0, 255, 0x01) := by
  decide +kernel
/-- G17. -/
theorem test_log10_ceil :
    results (.log10 (.mode .ceil)) (withOperands (10 ^ 77 + 1) 0 0) = some (0, 78, 0x01) := by decide +kernel
/-- G14. -/
theorem test_log256_floor : results (.log256 (.mode .trunc)) (withOperands 65535 0 0) = some (0, 1, 0x01) := by
  decide +kernel
/-- U4. -/
theorem test_roundsUp_expand : results (.roundsUp (.mode .expand)) (State.resetWith 64) = some (0, 1, 0x01) := by
  decide
/-- B6. -/
theorem test_clz : results .clz (withOperands (2 ^ 255 - 1) 0 0) = some (0, 1, 0x01) := by decide +kernel
/-- B1. -/
theorem test_clz_zero : results .clz (withOperands 0 0 0) = some (0, 256, 0x01) := by decide
/-- M3. -/
theorem test_invMod_large : results .invMod (withOperands 2 (2 ^ 255 - 19) 0) = some (0, 2 ^ 254 - 9, 0x01) := by
  decide +kernel
/-- M6. -/
theorem test_invMod_zero_modulus : results .invMod (withOperands 1 0 0) = some (0, 0, 0x01) := by decide
/-- M18. -/
theorem test_modExp_large :
    results .modExp (withOperands 2 (2 ^ 255 - 21) (2 ^ 255 - 19)) = some (0, 2 ^ 254 - 9, 0x01) := by decide +kernel
/-- M11. -/
theorem test_modExp_zero_zero : results .modExp (withOperands 0 0 5) = some (0, 1, 0x01) := by decide +kernel
/-- M21. -/
theorem test_tryModExp_one : results .tryModExp (withOperands 9 9 1) = some (0, 0, 0x01) := by decide
/-- M20. -/
theorem test_tryModExp_zero : results .tryModExp (withOperands 2 10 0) = some (0, 0, 0x00) := by decide

/-- The state of the byte-string vectors: 64 buffer bytes, base 03 at 0, exponent 00 05 at 1, the given modulus at 3,
and the given output offset. -/
def withStrings (m0 m1 : Byte) (out : Nat) : State :=
  { withOperands 0x100000000 0x200000001 0x200000003 with
    d := { value := word out, written := true }, buf := [(0, 0x03), (1, 0x00), (2, 0x05), (3, m0), (4, m1)] }

/-- The next state of an outcome, if it has one. -/
def nextState (o : Host.Outcome State Fault Refusal) : Option State :=
  match o with
  | .next t => some t
  | .fault _ => none
  | .refused _ => none

/-- X10: the output overlaps the inputs. -/
theorem test_modExpB_overlap : nextState (exec .modExpB (withStrings 0 7 0)) =
    some { withStrings 0 7 0 with
      lo := 2, ok := true, buf := [(0, 0x00), (1, 0x05), (2, 0x05), (3, 0x00), (4, 0x07)] } := by decide +kernel
/-- X8. -/
theorem test_modExpB_bad_descriptor : results .modExpB (withStrings 0 7 63) = some (0, 0, 0x1A) := by decide +kernel
/-- X7. -/
theorem test_tryModExpB : nextState (exec .tryModExpB (withStrings 0 7 8)) =
    some { withStrings 0 7 8 with
      lo := 2, ok := true,
      buf := [(0, 0x03), (1, 0x00), (2, 0x05), (3, 0x00), (4, 0x07), (8, 0x00), (9, 0x05)] } := by decide +kernel
/-- X6. -/
theorem test_tryModExpB_zero : nextState (exec .tryModExpB (withStrings 0 0 8)) = some (withStrings 0 0 8) := by
  decide +kernel

/-! ### The step -/

/-- E9: ADD512 with A and B unwritten: a recorded model fault, no commit, CMD reads back 1. -/
theorem test_step_unwritten_operand : step (State.reset.withFetchWord 256 1) =
    .next { State.reset with cmd := 1, hpc := 1, faults := [.uninitOperand .A] } := by rfl
/-- E11: CFG of a unit with 64 buffer bytes. -/
theorem test_cfg : cfgWord 64 = 0x5757552d323536000001000000400100 := by decide
/-- E15. -/
theorem test_bus_error : step { State.resetWith 64 with pending := [.bufWrite 64 0] } =
    .next { State.resetWith 64 with hpc := 1, faults := [.hostBusError .buffer 64] } := by rfl

/-! ### Witnesses: states and operands that meet the hypotheses of the statements -/

/-- A unit of 64 buffer bytes with one transaction pending. -/
def withTxn (t : HostTxn) : State := { withStrings 0 7 8 with pending := [t] }

/-- Each disjunct of R76's condition. -/
theorem witness_IllegalWordsEndInIllegalCommand :
    decode 0x45 = .illegal ∧ decode 0x800 = .illegal ∧ decode 0x130 = .illegal := by decide +kernel
theorem witness_ReservedRndEndsInDomain :
    (0x0414 : Word).toNat / 2 ^ 11 = 0 ∧ (0x0414 : Word).toNat % 256 ∈ roundingOps ∧
    4 ≤ (0x0414 : Word).toNat / 2 ^ 8 % 8 ∧ (0x0724 : Word).toNat / 2 ^ 11 = 0 ∧
    (0x0724 : Word).toNat % 256 ∈ roundingOps ∧ 4 ≤ (0x0724 : Word).toNat / 2 ^ 8 % 8 := by decide +kernel
theorem witness_CommandWordIsOpPlus256Rnd : (Instr.add512).op.code.toNat ∉ roundingOps := by decide +kernel
theorem witness_AssemblerEmitsOnlyLegalWords :
    assembleCommand "MULDIVR" (some "EXPAND") = some (.mulDivR (.mode .expand)) := by decide +kernel
/-- A command, an illegal word, and a DOMAIN word (U5). -/
theorem witness_StepRunsDecodedCommand :
    (withTxn (.regWrite 4 0x43)).pending = .regWrite 4 0x43 :: [] ∧ decode 0x43 = .op .modExpB ∧
    (withTxn (.regWrite 4 0)).pending = .regWrite 4 0 :: [] ∧ decode 0 = .illegal ∧
    (withTxn (.regWrite 4 0x424)).pending = .regWrite 4 0x424 :: [] ∧
    decode 0x424 = .domain (.roundsUp (.reserved 0)) := by decide +kernel
theorem witness_IdleUnitHoldsItsState : (withStrings 0 7 8).pending = [] := rfl
theorem witness_RegReadReturnsWholeRegister :
    (∀ i ∈ List.range 9, (withTxn (.regRead i)).pending = .regRead i :: []) ∧
    [OperandName.A, .B, .C, .D][0]? = some .A ∧ (withTxn (.regRead 0)).Holds .A 0x100000000 ∧
    [OperandName.A, .B, .C, .D][3]? = some .D ∧ (withTxn (.regRead 3)).Holds .D 8 ∧
    (withTxn (.regRead 8)).bufBytes < 2 ^ 32 := by decide +kernel
theorem witness_UnwrittenOperandReadIsADraw :
    [OperandName.A, .B, .C, .D][3]? = some .D ∧
    ({ withOperands 1 2 3 with pending := [.regRead 3] } : State).pending = .regRead 3 :: [] ∧
    (({ withOperands 1 2 3 with pending := [.regRead 3] } : State).operand .D).written = false := by decide +kernel
theorem witness_RegWriteStoresOperand :
    (∀ i ∈ List.range 4, (withTxn (.regWrite i 9)).pending = .regWrite i 9 :: []) := by decide +kernel
theorem witness_WritesToReadOnlyRegistersAreIgnored :
    (∀ i ∈ [5, 8], (withTxn (.regWrite i 9)).pending = .regWrite i 9 :: [] ∧ 5 ≤ i ∧ i ≤ 8) := by decide +kernel
theorem witness_BufWriteSetsOneByte :
    (withTxn (.bufWrite 63 1)).pending = .bufWrite 63 1 :: [] ∧ 63 < (withTxn (.bufWrite 63 1)).bufBytes := by
  decide +kernel
theorem witness_BufReadReturnsByte :
    4 < (withTxn (.bufRead 4)).bufBytes ∧ (withTxn (.bufRead 4)).buf.read 4 = some 7 ∧
    63 < (withTxn (.bufRead 63)).bufBytes ∧ (withTxn (.bufRead 63)).buf.read 63 = none := by decide +kernel
theorem witness_OutOfRangeAccessIsRecorded :
    (withTxn (.regRead 9)).pending = .regRead 9 :: [] ∧ (withTxn (.regWrite 9 0)).pending = .regWrite 9 0 :: [] ∧
    (withTxn (.bufRead 64)).bufBytes ≤ 64 ∧ (withTxn (.bufWrite 64 0)).bufBytes ≤ 64 := by decide +kernel
theorem witness_ResetTransactionResetsTheUnit : (withTxn .reset).pending = .reset :: [] := rfl
/-- Operands for Add512GivesExactSum, Mul512GivesExactProduct, TryAddGivesSumOrFails, TryMulGivesProductOrFails,
Add512AndTryAddAgree, Mul512AndTryMulAgree, CeilDivGivesCeilingOrFails and TryCeilDivGivesCeilingOrTryFails, at the
boundary of each case. -/
theorem witness_twoOperands :
    (withOperands (2 ^ 256 - 1) 1 0).Holds .A (word (2 ^ 256 - 1)) ∧ (withOperands (2 ^ 256 - 1) 1 0).Holds .B 1 ∧
    2 ^ 256 ≤ (word (2 ^ 256 - 1)).toNat + (1 : Word).toNat ∧
    (word (2 ^ 256 - 2)).toNat + (1 : Word).toNat < 2 ^ 256 ∧
    2 ^ 256 ≤ (word (2 ^ 255)).toNat * (2 : Word).toNat ∧
    (word (2 ^ 256 - 1)).toNat * (1 : Word).toNat < 2 ^ 256 ∧ (1 : Word) ≠ 0 := by decide +kernel
/-- Operands for MulDivGivesQuotientOrFails, TryMulDivGivesQuotientOrTryFails, MulDivRRoundsThenChecks,
TryMulDivRRoundsThenChecks, MulDivOverflowsExactlyWhenHighReachesDivisor, ModExpGivesThePowerOrFails and
TryModExpGivesThePowerOrTryFails, at the boundary of each case. -/
theorem witness_threeOperands :
    (withOperands (2 ^ 255) 2 1).Holds .A (word (2 ^ 255)) ∧ (withOperands (2 ^ 255) 2 1).Holds .B 2 ∧
    (withOperands (2 ^ 255) 2 1).Holds .C 1 ∧ (1 : Word) ≠ 0 ∧
    2 ^ 256 ≤ (word (2 ^ 255)).toNat * (2 : Word).toNat / (1 : Word).toNat ∧
    (word (2 ^ 255)).toNat * (2 : Word).toNat / (2 : Word).toNat < 2 ^ 256 ∧
    (withOperands 1 1 0).Holds .C 0 := by decide +kernel
/-- MULDIV succeeds on 7·3/2, and MULDIVR.CEIL does (V11, V22). -/
theorem witness_DivisionIdentityHoldsOnEverySuccess :
    (∃ t, exec .mulDiv (withOperands 7 3 2) = .next t ∧ t.ok = true) ∧
    (∃ t, exec (.mulDivR (.mode .ceil)) (withOperands 7 3 2) = .next t ∧ t.ok = true) :=
  ⟨⟨_, rfl, rfl⟩, ⟨_, rfl, rfl⟩⟩
/-- Operands for SqrtGivesRoundedRoot, Log2GivesRoundedLog, Log10GivesRoundedLog, Log256GivesRoundedLog,
LogResultsReachTheirBounds, ClzCountsLeadingZeros and ClzComplementsFloorLog2. -/
theorem witness_oneOperand :
    (withOperands (2 ^ 256 - 1) 0 0).Holds .A (word (2 ^ 256 - 1)) ∧ (word (2 ^ 256 - 1)).toNat = 2 ^ 256 - 1 ∧
    word (2 ^ 256 - 1) ≠ 0 ∧ (withOperands 0 0 0).Holds .A 0 := by decide +kernel
theorem witness_LogResultsReachTheirBounds :
    (∃ t, exec (.log2 (.mode .ceil)) (withOperands 9 0 0) = .next t) ∧
    (∃ t, exec (.log10 (.mode .ceil)) (withOperands 9 0 0) = .next t) ∧
    (∃ t, exec (.log256 (.mode .ceil)) (withOperands 9 0 0) = .next t) := ⟨⟨_, rfl⟩, ⟨_, rfl⟩, ⟨_, rfl⟩⟩
theorem witness_InvModGivesTheInverseOrZero :
    (withOperands 3 7 0).Holds .A 3 ∧ (withOperands 3 7 0).Holds .B 7 ∧ 1 < (7 : Word).toNat ∧
    Nat.gcd (3 : Word).toNat (7 : Word).toNat = 1 ∧ Nat.gcd (4 : Word).toNat (8 : Word).toNat ≠ 1 ∧
    (1 : Word).toNat ≤ 1 := by decide +kernel
theorem witness_InvModIsAnInverseAndAFermatPower :
    (withOperands 3 5 7).Holds .A 3 ∧ (withOperands 3 5 7).Holds .B (7 - 2) ∧ (withOperands 3 5 7).Holds .C 7 ∧
    Nat.Prime (7 : Word).toNat ∧ (3 : Word).toNat % (7 : Word).toNat ≠ 0 ∧
    results .invMod (withOperands 3 7 0) = some (0, 5, 0x01) :=
  ⟨by decide +kernel, by decide +kernel, by decide +kernel, by show Nat.Prime 7; norm_num, by decide +kernel,
    by decide +kernel⟩
/-- The byte-string operands of X1 with the output at the very end of BUF, and of X4 with a modulus of value 0
(for TryModExpBWritesThePowerOrTryFails too). -/
theorem witness_ModExpBWritesThePowerOrFails :
    ByteOperands (withStrings 0 7 62) 0 1 3 62 [0x03] [0x00, 0x05] [0x00, 0x07] ∧
    bigEndian [0x00, 0x07] ≠ 0 ∧
    ByteOperands (withStrings 0 0 8) 0 1 3 8 [0x03] [0x00, 0x05] [0x00, 0x00] ∧ bigEndian [0x00, 0x00] = 0 :=
  ⟨by constructor <;> decide +kernel, by decide +kernel, by constructor <;> decide +kernel, by decide +kernel⟩
/-- A unit of 128 buffer bytes with the three Words 3, 5, 7 as 32-byte strings from 0 upward. -/
def withWordStrings : State :=
  { State.resetWith 128 with
    a := { value := descriptor 0 32, written := true }, b := { value := descriptor 32 32, written := true },
    c := { value := descriptor 64 32, written := true }, d := { value := word 96, written := true },
    buf := Memory.writeBytes [] 0 (beBytes 3 32 ++ beBytes 5 32 ++ beBytes 7 32) }
theorem witness_ByteStringModExpAgreesWithScalar :
    ByteOperands withWordStrings 0 32 64 96 (beBytes (3 : Word).toNat 32) (beBytes (5 : Word).toNat 32)
      (beBytes (7 : Word).toNat 32) ∧ (7 : Word) ≠ 0 ∧
    (withOperands 3 5 7).Holds .A 3 ∧ (withOperands 3 5 7).Holds .B 5 ∧ (withOperands 3 5 7).Holds .C 7 :=
  ⟨by constructor <;> decide +kernel, by decide +kernel⟩
/-- X8 (the output range), and a reserved bit in A, an input range one byte too long in B, a reserved bit in D. -/
theorem witness_BadDescriptorFailsBothForms :
    (withStrings 0 7 63).Holds .A 0x100000000 ∧ (withStrings 0 7 63).Holds .B 0x200000001 ∧
    (withStrings 0 7 63).Holds .C 0x200000003 ∧ (withStrings 0 7 63).Holds .D 63 ∧
    InvalidDescriptor (withStrings 0 7 63).bufBytes 0x100000000 0x200000001 0x200000003 63 ∧
    InvalidDescriptor 64 0x10000000100000000 0x200000001 0x200000003 8 ∧
    InvalidDescriptor 64 0x100000000 0x4100000000 0x200000003 8 ∧
    InvalidDescriptor 64 0x100000000 0x200000001 0x200000003 0x100000000 := by
  refine ⟨by decide +kernel, by decide +kernel, by decide +kernel, by decide +kernel, .inr (.inr (by decide +kernel)),
    .inl ⟨_, .head _, .inl (by decide +kernel)⟩, .inl ⟨_, .tail _ (.head _), .inr (by decide +kernel)⟩,
    .inr (.inl (by decide +kernel))⟩
theorem witness_UnwrittenOperandIsRecorded :
    (Instr.modExpB).wellFormed = true ∧ operandsRead .modExpB = [.A, .B, .C] ++ .D :: [] ∧
    (∀ y ∈ [OperandName.A, .B, .C], ((withOperands 1 2 3).operand y).written = true) ∧
    ((withOperands 1 2 3).operand .D).written = false := by decide +kernel
/-- X11: byte 0 unwritten. Its exponent, modulus and output ranges end inside BUF. -/
theorem witness_UnwrittenBufferByteIsRecorded :
    let s : State := { withStrings 0 7 8 with buf := [(1, 0x00), (2, 0x05), (3, 0x00), (4, 0x07)] }
    s.Holds .A (descriptor 0 1) ∧ s.Holds .B (descriptor 1 2) ∧ s.Holds .C (descriptor 3 2) ∧ s.Holds .D (word 8) ∧
    s.bufBytes < 2 ^ 32 ∧ 0 + 1 ≤ s.bufBytes ∧ 1 + 2 ≤ s.bufBytes ∧ 3 + 2 ≤ s.bufBytes ∧ 8 + 2 ≤ s.bufBytes ∧
    ((List.range 1).map (0 + ·) ++ (List.range 2).map (1 + ·) ++ (List.range 2).map (3 + ·)).find?
      (fun addr => (s.buf.read addr).isNone) = some 0 := by decide +kernel
theorem witness_EveryStepKeepsTheInvariant :
    (withTxn (.regWrite 4 0x43)).Inv ∧ ∃ t, step (withTxn (.regWrite 4 0x43)) = .next t :=
  ⟨by constructor <;> decide +kernel, _, rfl⟩
theorem witness_OnlyByteStringCommandsUseBuf : Instr.add512 ≠ .modExpB ∧ Instr.add512 ≠ .tryModExpB := by
  decide +kernel
theorem witness_StickyIsSetByStrictFailuresAndClearedOnlyByReset :
    (∃ t, executeCommand 0 (State.resetWith 64) = .next t ∧ t.faults = (State.resetWith 64).faults ∧ t.err ≠ 0) ∧
    (∃ t, step { withTxn (.regRead 7) with sticky := true } = .next t) ∧
    ({ withTxn (.regRead 7) with sticky := true } : State).pending.head? ≠ some .reset ∧
    (∃ t, step (withTxn .reset) = .next t) ∧ (withTxn .reset).pending.head? = some .reset :=
  ⟨⟨_, rfl, rfl, by decide +kernel⟩, ⟨_, rfl⟩, by decide +kernel, ⟨_, rfl⟩, by decide +kernel⟩
theorem witness_RecordedFaultsAreNeverCleared : ∃ t, step (withTxn (.regRead 9)) = .next t := ⟨_, rfl⟩
theorem witness_CeilDivIsMulDivRCeilByOne :
    (withOperands 8 7 0).Holds .A 8 ∧ (withOperands 8 7 0).Holds .B 7 ∧ (7 : Word) ≠ 0 := by decide +kernel
/-- Two states that differ in HI, CMD, STATUS and a BUF byte no descriptor names. -/
theorem witness_OutcomeDependsOnlyOnOperands :
    let s := withStrings 0 7 8
    let u : State := { s with hi := 5, cmd := 9, sticky := true, buf := s.buf.write 20 1 }
    decode 0x43 = .op .modExpB ∧ (∀ x ∈ operandsRead .modExpB, ∀ w, s.Holds x w ↔ u.Holds x w) ∧
    s.bufBytes = u.bufBytes ∧
    ∀ x ∈ [OperandName.A, .B, .C], ∀ w, s.Holds x w → ∀ addr, w.toNat % 2 ^ 32 ≤ addr →
      addr < w.toNat % 2 ^ 32 + w.toNat / 2 ^ 32 % 2 ^ 32 → s.buf.read addr = u.buf.read addr := by
  refine ⟨by decide +kernel, fun x _ w => by cases x <;> exact Iff.rfl, rfl, fun x hx w hw addr _ h2 => ?_⟩
  have hb : ∀ x ∈ [OperandName.A, .B, .C], ((withStrings 0 7 8).operand x).value.toNat % 2 ^ 32 +
      ((withStrings 0 7 8).operand x).value.toNat / 2 ^ 32 % 2 ^ 32 ≤ 5 := by decide +kernel
  have h5 := hb x hx
  rw [show (withStrings 0 7 8).operand x = _ from hw] at h5
  have h20 : addr ≠ 20 := fun h => absurd (Nat.lt_of_lt_of_le (h ▸ h2) h5) (by omega)
  simp only [Memory.read_write, h20, if_false]
/-- ADD512 in two states whose B is unwritten over different Words. -/
theorem witness_OutcomeDependsOnlyOnOperands_unwritten :
    let s : State := { withOperands 1 2 3 with b := { value := 4, written := false } }
    let u : State := { withOperands 1 2 3 with b := { value := 5, written := false } }
    decode 0x01 = .op .add512 ∧ ∀ x ∈ operandsRead .add512, ∀ w, s.Holds x w ↔ u.Holds x w := by
  refine ⟨by decide +kernel, fun x hx w => ?_⟩
  cases x <;> simp [operandsRead, State.Holds, State.operand] at hx ⊢

end Sys2Proof.Tests
end

section
/-! The scope's rounding rule (00_scope.md R9): a command uses its Rounding only through the predicate of R170. -/

namespace Sys2Proof.Machine

/-- The seven commands that have a Rounding (00_scope.md R9), each as a function of its RND field. -/
def roundingCommands : List (RndField → Instr) :=
  [Instr.mulDivR, Instr.tryMulDivR, Instr.sqrt, Instr.log2, Instr.log10, Instr.log256, Instr.roundsUp]

theorem sqrtRule_congr_roundsUp {r r' : Rounding} (h : roundsUp r = roundsUp r') : sqrtRule r = sqrtRule r' := by
  funext n
  rw [sqrtRule, sqrtRule, h]

theorem logRule_congr_roundsUp (base : Nat) {r r' : Rounding} (h : roundsUp r = roundsUp r') :
    logRule base r = logRule base r' := by
  funext n
  rw [logRule, logRule, h]

/-- The outcome of a rounding command depends on its Rounding only through the predicate ROUNDSUP computes. -/
theorem outcomeOf_congr_roundsUp {f : RndField → Instr} (hf : f ∈ roundingCommands) {r r' : Rounding}
    (h : roundsUp r = roundsUp r') (s : State) : outcomeOf (f (.mode r)) s = outcomeOf (f (.mode r')) s := by
  simp only [roundingCommands, List.mem_cons, List.not_mem_nil, or_false] at hf
  obtain rfl | rfl | rfl | rfl | rfl | rfl | rfl := hf <;> simp only [outcomeOf, withRounding_mode]
  · rw [h]
  · rw [h]
  · rw [sqrtRule_congr_roundsUp h]
  · rw [logRule_congr_roundsUp 2 h]
  · rw [logRule_congr_roundsUp 10 h]
  · rw [logRule_congr_roundsUp 256 h]
  · rw [h]

theorem exec_congr_roundsUp {f : RndField → Instr} (hf : f ∈ roundingCommands) {r r' : Rounding}
    (h : roundsUp r = roundsUp r') (s : State) : exec (f (.mode r)) s = exec (f (.mode r')) s := by
  rw [exec_eq_commit, exec_eq_commit, outcomeOf_congr_roundsUp hf h]

/-- Settles O39: neither Floor nor Trunc rounds up, both Ceil and Expand do, and a rounding command sees no more
of its Rounding than that. -/
theorem pairedRoundingsAreIdentical : Obligations.PairedRoundingsAreIdentical := by
  intro s f hf
  have floor_trunc : roundsUp .floor = roundsUp .trunc := rfl
  have ceil_expand : roundsUp .ceil = roundsUp .expand := rfl
  exact ⟨exec_congr_roundsUp hf floor_trunc s, exec_congr_roundsUp hf ceil_expand s⟩

end Sys2Proof.Machine
end

section
/-! The outcome of a command word (30_encoding.md R79): what it writes to BUF (20_memory.md R51, R67) and what it
depends on (10_state.md R33), for the operand forms, for the rules over them, and for every command. -/

namespace Sys2Proof.Machine

/-! ### The outcome of a command word -/

/-- R79: the outcome of the command word `v` written to CMD, before its commit. -/
def commandOutcome (v : Word) (s : State) : OpOutcome :=
  match decode v with
  | .illegal => .raise .illegalCommand
  | .domain _ => .raise .domain
  | .op i => outcomeOf i s

/-- R25: no command reads CMD. -/
theorem outcomeOf_cmd (i : Instr) (s : State) (v : Word) : outcomeOf i { s with cmd := v } = outcomeOf i s := by
  cases i <;> rfl

theorem executeCommand_eq_commit (v : Word) (s : State) :
    executeCommand v s = .next (commit (commandOutcome v s) { s with cmd := v }) := by
  unfold executeCommand commandOutcome
  cases decode v with
  | illegal => rfl
  | domain i => rfl
  | op i => exact (exec_eq_commit i _).trans (by rw [outcomeOf_cmd])

/-! ### What an outcome writes to BUF -/

/-- R67: the start address and the bytes that the commit of an outcome writes to BUF, if any. -/
def OpOutcome.bufWrite : OpOutcome → Option (Nat × List Byte)
  | .success _ write => write
  | .tryFail | .raise _ | .modelFault _ => none

@[simp] theorem commit_buf (o : OpOutcome) (s : State) : (commit o s).buf = applyWrite o.bufWrite s.buf := by
  cases o <;> rfl

@[simp] theorem commit_bufBytes (o : OpOutcome) (s : State) : (commit o s).bufBytes = s.bufBytes := by
  cases o <;> rfl

theorem withOperand_bufWrite_none (x : OperandName) (s : State) {k : Word → OpOutcome}
    (h : ∀ v, (k v).bufWrite = none) : (withOperand x s k).bufWrite = none := by
  obtain ⟨-, hk⟩ | ⟨-, hk⟩ := withOperand_cases x s k <;> rw [hk]
  · exact h _
  · rfl

theorem withA_bufWrite_none (s : State) {rule : Word → OpOutcome} (h : ∀ a, (rule a).bufWrite = none) :
    (withA s rule).bufWrite = none :=
  withOperand_bufWrite_none .A s h

theorem withAB_bufWrite_none (s : State) {rule : Word → Word → OpOutcome}
    (h : ∀ a b, (rule a b).bufWrite = none) : (withAB s rule).bufWrite = none :=
  withOperand_bufWrite_none .A s fun a => withOperand_bufWrite_none .B s (h a)

theorem withABC_bufWrite_none (s : State) {rule : Word → Word → Word → OpOutcome}
    (h : ∀ a b c, (rule a b c).bufWrite = none) : (withABC s rule).bufWrite = none :=
  withOperand_bufWrite_none .A s fun a => withOperand_bufWrite_none .B s fun b =>
    withOperand_bufWrite_none .C s (h a b)

theorem withRounding_bufWrite_none (rnd : RndField) {k : Rounding → OpOutcome}
    (h : ∀ r, (k r).bufWrite = none) : (withRounding rnd k).bufWrite = none := by
  cases rnd with
  | mode r => exact h r
  | reserved n => rfl

/-- A byte-string command that writes BUF has read all four operand registers. -/
theorem withABCD_bufWrite {s : State} {rule : Word → Word → Word → Word → OpOutcome} {w : Nat × List Byte}
    (h : (withABCD s rule).bufWrite = some w) :
    ∃ a b c d, s.Holds .A a ∧ s.Holds .B b ∧ s.Holds .C c ∧ s.Holds .D d ∧ (rule a b c d).bufWrite = some w := by
  have read {x : OperandName} {k : Word → OpOutcome} (hk : (withOperand x s k).bufWrite = some w) :
      ∃ v, s.Holds x v ∧ (k v).bufWrite = some w := by
    obtain ⟨hx, hv⟩ | ⟨-, hf⟩ := withOperand_cases x s k
    · exact ⟨_, by rw [State.Holds, ← hx], hv ▸ hk⟩
    · rw [hf] at hk; cases hk
  obtain ⟨a, ha, h⟩ := read h
  obtain ⟨b, hb, h⟩ := read h
  obtain ⟨c, hc, h⟩ := read h
  obtain ⟨d, hd, h⟩ := read h
  exact ⟨a, b, c, d, ha, hb, hc, hd, h⟩

theorem fittingResult_bufWrite_none {overflow : OpOutcome} (h : overflow.bufWrite = none) (n : Nat) :
    (fittingResult overflow n).bufWrite = none := by
  obtain ⟨-, hn⟩ | ⟨-, hn⟩ := fittingResult_cases overflow n <;> rw [hn]
  · rfl
  · exact h

theorem ceilDivRule_bufWrite_none {zeroDivisor : OpOutcome} (h : zeroDivisor.bufWrite = none) (a b : Word) :
    (ceilDivRule zeroDivisor a b).bufWrite = none := by
  unfold ceilDivRule
  split
  · exact h
  · rfl

theorem mulDivRule_bufWrite_none {zeroDivisor overflow : OpOutcome} (hz : zeroDivisor.bufWrite = none)
    (ho : overflow.bufWrite = none) (up : Bool) (x y d : Word) :
    (mulDivRule zeroDivisor overflow up x y d).bufWrite = none := by
  unfold mulDivRule
  split
  · exact hz
  · exact fittingResult_bufWrite_none ho _

theorem logRule_bufWrite_none (base : Nat) (r : Rounding) (n : Word) : (logRule base r n).bufWrite = none := by
  unfold logRule
  split <;> rfl

theorem invModRule_bufWrite_none (v m : Word) : (invModRule v m).bufWrite = none := by
  unfold invModRule
  split
  · rfl
  · split <;> rfl

theorem modExpRule_bufWrite_none {zeroModulus : OpOutcome} (h : zeroModulus.bufWrite = none) (b e m : Word) :
    (modExpRule zeroModulus b e m).bufWrite = none := by
  unfold modExpRule
  split
  · exact h
  · split <;> rfl

/-- R51: no command but the two byte-string commands writes BUF. -/
theorem outcomeOf_bufWrite_none {i : Instr} (hB : i ≠ .modExpB) (hTryB : i ≠ .tryModExpB) (s : State) :
    (outcomeOf i s).bufWrite = none := by
  cases i with
  | add512 | mul512 => exact withAB_bufWrite_none s fun _ _ => rfl
  | tryAdd | tryMul => exact withAB_bufWrite_none s fun _ _ => fittingResult_bufWrite_none rfl _
  | ceilDiv | tryCeilDiv => exact withAB_bufWrite_none s (ceilDivRule_bufWrite_none rfl)
  | mulDiv | tryMulDiv => exact withABC_bufWrite_none s (mulDivRule_bufWrite_none rfl rfl _)
  | mulDivR rnd | tryMulDivR rnd =>
    exact withRounding_bufWrite_none rnd fun _ => withABC_bufWrite_none s (mulDivRule_bufWrite_none rfl rfl _)
  | sqrt rnd => exact withRounding_bufWrite_none rnd fun _ => withA_bufWrite_none s fun _ => rfl
  | log2 rnd | log10 rnd | log256 rnd =>
    exact withRounding_bufWrite_none rnd fun _ => withA_bufWrite_none s (logRule_bufWrite_none _ _)
  | roundsUp rnd => exact withRounding_bufWrite_none rnd fun _ => rfl
  | clz => exact withA_bufWrite_none s fun _ => rfl
  | invMod => exact withAB_bufWrite_none s invModRule_bufWrite_none
  | modExp | tryModExp => exact withABC_bufWrite_none s (modExpRule_bufWrite_none rfl)
  | modExpB => exact absurd rfl hB
  | tryModExpB => exact absurd rfl hTryB

/-- R78: a valid output descriptor names a range inside BUF. -/
theorem outputDescriptor_inRange {n len offset : Nat} {v : Word} (h : outputDescriptor n len v = some offset) :
    offset + len ≤ n := by
  rw [outputDescriptor_eq] at h
  split at h
  · cases h
  · cases h; omega

theorem withInput_bufWrite {n : Nat} {v : Word} {k : Nat → Nat → OpOutcome} {w : Nat × List Byte}
    (h : (withInput n v k).bufWrite = some w) :
    (k (v.toNat % 2 ^ 32) (v.toNat / 2 ^ 32 % 2 ^ 32)).bufWrite = some w := by
  obtain hk | ⟨-, hk⟩ := withInput_cases n v k <;> rw [hk] at h
  · cases h
  · exact h

theorem withOutput_bufWrite {n len : Nat} {v : Word} {k : Nat → OpOutcome} {w : Nat × List Byte}
    (h : (withOutput n len v k).bufWrite = some w) :
    ∃ offset, outputDescriptor n len v = some offset ∧ (k offset).bufWrite = some w := by
  unfold withOutput at h
  split at h
  · cases h
  · exact ⟨_, ‹_›, h⟩

theorem withMem_bufWrite {m : Memory} {addr n : Nat} {k : Nat → OpOutcome} {w : Nat × List Byte}
    (h : (withMem m addr n k).bufWrite = some w) : ∃ value, (k value).bufWrite = some w := by
  obtain ⟨x, hk⟩ | ⟨bs, -, hk⟩ := withMem_cases m addr n k <;> rw [hk] at h
  · cases h
  · exact ⟨_, h⟩

/-- R67, R224: the byte-string rule writes as many bytes as C's length field says, from the offset D names. -/
theorem modExpBRule_bufWrite {zeroModulus : OpOutcome} {n : Nat} {m : Memory} {a b c d : Word} {w : Nat × List Byte}
    (hz : zeroModulus.bufWrite = none) (h : (modExpBRule zeroModulus n m a b c d).bufWrite = some w) :
    outputDescriptor n (c.toNat / 2 ^ 32 % 2 ^ 32) d = some w.1 ∧ w.2.length = c.toNat / 2 ^ 32 % 2 ^ 32 := by
  obtain ⟨offset, hd, h⟩ := withOutput_bufWrite (withInput_bufWrite (withInput_bufWrite (withInput_bufWrite h)))
  obtain ⟨base, h⟩ := withMem_bufWrite h
  obtain ⟨exponent, h⟩ := withMem_bufWrite h
  obtain ⟨modulus, h⟩ := withMem_bufWrite h
  split at h
  · rw [hz] at h; cases h
  · cases h; exact ⟨hd, beBytes_length _ _⟩

/-- R67, R224: the BUF write of a command is that of a byte-string command, as C and D describe it. -/
theorem outcomeOf_bufWrite {i : Instr} {s : State} {w : Nat × List Byte} (h : (outcomeOf i s).bufWrite = some w) :
    (i = .modExpB ∨ i = .tryModExpB) ∧ ∃ c d, s.Holds .C c ∧ s.Holds .D d ∧
      outputDescriptor s.bufBytes (c.toNat / 2 ^ 32 % 2 ^ 32) d = some w.1 ∧
      w.2.length = c.toNat / 2 ^ 32 % 2 ^ 32 := by
  have hi : i = .modExpB ∨ i = .tryModExpB := by
    by_contra! hi
    simp [outcomeOf_bufWrite_none hi.1 hi.2] at h
  obtain ⟨zero, hz, h⟩ : ∃ zero : OpOutcome, zero.bufWrite = none ∧
      (withABCD s (modExpBRule zero s.bufBytes s.buf)).bufWrite = some w := by
    obtain rfl | rfl := hi
    · exact ⟨_, rfl, h⟩
    · exact ⟨_, rfl, h⟩
  obtain ⟨a, b, c, d, -, -, hc, hd, h⟩ := withABCD_bufWrite h
  exact ⟨hi, c, d, hc, hd, modExpBRule_bufWrite hz h⟩

/-- R51, R78: whatever a command word writes to BUF lies inside it. -/
theorem commandOutcome_bufWrite_inRange {v : Word} {s : State} {w : Nat × List Byte}
    (h : (commandOutcome v s).bufWrite = some w) : w.1 + w.2.length ≤ s.bufBytes := by
  unfold commandOutcome at h
  split at h
  · cases h
  · cases h
  · obtain ⟨-, c, d, -, -, hd, hlen⟩ := outcomeOf_bufWrite h
    rw [hlen]
    exact outputDescriptor_inRange hd

/-! ### What an outcome depends on -/

theorem withA_congr {s u : State} (h : ∀ x ∈ [OperandName.A], ∀ w, s.Holds x w ↔ u.Holds x w)
    (rule : Word → OpOutcome) : withA s rule = withA u rule :=
  withOperand_congr .A s u _ _ (h .A (by simp)) fun _ _ => rfl

theorem withAB_congr {s u : State} (h : ∀ x ∈ [OperandName.A, .B], ∀ w, s.Holds x w ↔ u.Holds x w)
    (rule : Word → Word → OpOutcome) : withAB s rule = withAB u rule :=
  withOperand_congr .A s u _ _ (h .A (by simp)) fun _ _ =>
    withOperand_congr .B s u _ _ (h .B (by simp)) fun _ _ => rfl

theorem withABC_congr {s u : State} (h : ∀ x ∈ [OperandName.A, .B, .C], ∀ w, s.Holds x w ↔ u.Holds x w)
    (rule : Word → Word → Word → OpOutcome) : withABC s rule = withABC u rule :=
  withOperand_congr .A s u _ _ (h .A (by simp)) fun _ _ =>
    withOperand_congr .B s u _ _ (h .B (by simp)) fun _ _ =>
      withOperand_congr .C s u _ _ (h .C (by simp)) fun _ _ => rfl

/-- The rules need to agree only on the Words that A, B and C hold. -/
theorem withABCD_congr {s u : State} (h : ∀ x ∈ [OperandName.A, .B, .C, .D], ∀ w, s.Holds x w ↔ u.Holds x w)
    {rule rule' : Word → Word → Word → Word → OpOutcome}
    (hrule : ∀ a b c d, s.Holds .A a → s.Holds .B b → s.Holds .C c → rule a b c d = rule' a b c d) :
    withABCD s rule = withABCD u rule' :=
  withOperand_congr .A s u _ _ (h .A (by simp)) fun a ha =>
    withOperand_congr .B s u _ _ (h .B (by simp)) fun b hb =>
      withOperand_congr .C s u _ _ (h .C (by simp)) fun c hc =>
        withOperand_congr .D s u _ _ (h .D (by simp)) fun d _ => hrule a b c d ha hb hc

/-- R10, R78: `m` and `m'` hold the same bytes, written or not, in the range the input descriptor `v` names. -/
def AgreeOnInput (m m' : Memory) (v : Word) : Prop :=
  ∀ addr, v.toNat % 2 ^ 32 ≤ addr → addr < v.toNat % 2 ^ 32 + v.toNat / 2 ^ 32 % 2 ^ 32 → m.read addr = m'.read addr

theorem Memory.readBytes_congr (m m' : Memory) (n : Nat) : ∀ addr : Nat,
    (∀ x, addr ≤ x → x < addr + n → m.read x = m'.read x) → m.readBytes addr n = m'.readBytes addr n := by
  induction n with
  | zero => intro addr _; rfl
  | succ n ih =>
    intro addr h
    have hhead : m.read addr = m'.read addr := h addr (Nat.le_refl _) (by omega)
    have htail : m.readBytes (addr + 1) n = m'.readBytes (addr + 1) n :=
      ih (addr + 1) fun x hx hx' => h x (by omega) (by omega)
    simp only [Memory.readBytes, hhead, htail]

theorem withInput_congr (n : Nat) (v : Word) {k k' : Nat → Nat → OpOutcome}
    (h : k (v.toNat % 2 ^ 32) (v.toNat / 2 ^ 32 % 2 ^ 32) = k' (v.toNat % 2 ^ 32) (v.toNat / 2 ^ 32 % 2 ^ 32)) :
    withInput n v k = withInput n v k' := by
  unfold withInput
  rw [inputDescriptor_eq]
  split_ifs
  · rfl
  · exact h

theorem withMem_congr {m m' : Memory} {v : Word} (h : AgreeOnInput m m' v) {k k' : Nat → OpOutcome}
    (hk : ∀ value, k value = k' value) :
    withMem m (v.toNat % 2 ^ 32) (v.toNat / 2 ^ 32 % 2 ^ 32) k =
      withMem m' (v.toNat % 2 ^ 32) (v.toNat / 2 ^ 32 % 2 ^ 32) k' := by
  rw [funext hk, withMem, withMem, Memory.readBytes_congr m m' _ _ h]

theorem modExpBRule_congr (zeroModulus : OpOutcome) (n : Nat) {m m' : Memory} {a b c : Word} (d : Word)
    (ha : AgreeOnInput m m' a) (hb : AgreeOnInput m m' b) (hc : AgreeOnInput m m' c) :
    modExpBRule zeroModulus n m a b c d = modExpBRule zeroModulus n m' a b c d :=
  withInput_congr n a <| withInput_congr n b <| withInput_congr n c <|
    congrArg (withOutput n _ d) <| funext fun _ =>
      withMem_congr ha fun _ => withMem_congr hb fun _ => withMem_congr hc fun _ => rfl

theorem withABCD_modExpBRule_congr (zeroModulus : OpOutcome) {s u : State}
    (hreg : ∀ x ∈ [OperandName.A, .B, .C, .D], ∀ w, s.Holds x w ↔ u.Holds x w)
    (hbuf : s.bufBytes = u.bufBytes ∧
      ∀ x ∈ [OperandName.A, .B, .C], ∀ w, s.Holds x w → AgreeOnInput s.buf u.buf w) :
    withABCD s (modExpBRule zeroModulus s.bufBytes s.buf) = withABCD u (modExpBRule zeroModulus u.bufBytes u.buf) := by
  obtain ⟨hn, hm⟩ := hbuf
  rw [← hn]
  exact withABCD_congr hreg fun a b c d ha hb hc =>
    modExpBRule_congr zeroModulus _ d (hm .A (by simp) a ha) (hm .B (by simp) b hb) (hm .C (by simp) c hc)

/-- R33: a command's outcome is the same in two states that agree on the operand registers it reads and, for a
byte-string command, on BUF_BYTES and on the bytes its input descriptors name. -/
theorem outcomeOf_congr (i : Instr) {s u : State} (hreg : ∀ x ∈ operandsRead i, ∀ w, s.Holds x w ↔ u.Holds x w)
    (hbuf : i = .modExpB ∨ i = .tryModExpB → s.bufBytes = u.bufBytes ∧
      ∀ x ∈ [OperandName.A, .B, .C], ∀ w, s.Holds x w → AgreeOnInput s.buf u.buf w) :
    outcomeOf i s = outcomeOf i u := by
  cases i with
  | add512 | mul512 | tryAdd | tryMul | ceilDiv | tryCeilDiv | invMod => exact withAB_congr hreg _
  | mulDiv | tryMulDiv | modExp | tryModExp => exact withABC_congr hreg _
  | mulDivR rnd | tryMulDivR rnd => exact congrArg (withRounding rnd) (funext fun _ => withABC_congr hreg _)
  | sqrt rnd | log2 rnd | log10 rnd | log256 rnd =>
    exact congrArg (withRounding rnd) (funext fun _ => withA_congr hreg _)
  | roundsUp rnd => rfl
  | clz => exact withA_congr hreg _
  | modExpB => exact withABCD_modExpBRule_congr _ hreg (hbuf (.inl rfl))
  | tryModExpB => exact withABCD_modExpBRule_congr _ hreg (hbuf (.inr rfl))

/-- Settles O59: an illegal word and a DOMAIN word read nothing, and the outcome of a command is `outcomeOf`, which
agrees in the two states. -/
theorem outcomeDependsOnlyOnOperands : Obligations.OutcomeDependsOnlyOnOperands := by
  intro v s u h
  have same : commandOutcome v s = commandOutcome v u := by
    unfold commandOutcome
    cases hv : decode v with
    | illegal => rfl
    | domain i => rfl
    | op i =>
      obtain ⟨hreg, hbuf⟩ := h i hv
      exact outcomeOf_congr i hreg hbuf
  exact ⟨commandOutcome v s, executeCommand_eq_commit v s, same ▸ executeCommand_eq_commit v u⟩

end Sys2Proof.Machine
end

section
/-! What one host transaction does to the unit (20_memory.md R52, R55, R58; 30_encoding.md R79), said once for every
step, and what every step keeps of it: the invariant of the reachable states, STICKY and the fault record. -/

namespace Sys2Proof.Machine

/-! ### What a host transaction can do -/

/-- All a transaction `t` of the host can do to the state `s` that has taken it (R52, R55, R58, R79, R290). -/
inductive TxnEffect (s : State) : HostTxn → State → Prop
  /-- An answered read, or a write to a read-only register (R37): only the host's answer and the model's count of
  draws move. -/
  | unitKept (t : HostTxn) (ht : t ≠ .reset) (answer : HostAnswer) (draws : Nat) :
      TxnEffect s t { s with answer := answer, draws := draws }
  | operandWritten (index : Nat) (x : OperandName) (v : Word) (hr : RegName.ofIndex index = some (.operand x)) :
      TxnEffect s (.regWrite index v) (s.setOperand x v)
  | commandRun (index : Nat) (v : Word) (hr : RegName.ofIndex index = some .cmd) :
      TxnEffect s (.regWrite index v) (commit (commandOutcome v s) { s with cmd := v })
  | byteWritten (addr : Nat) (b : Byte) (h : addr < s.bufBytes) :
      TxnEffect s (.bufWrite addr b) { s with buf := s.buf.write addr b }
  | busError (t : HostTxn) (ht : t ≠ .reset) (space : Space) (index : Nat) :
      TxnEffect s t (recordFault (.hostBusError space index) s)
  | unitReset : TxnEffect s .reset (applyReset s)

theorem hostRegWrite_effect {index : Nat} {v : Word} {s u : State} (h : hostRegWrite index v s = .next u) :
    TxnEffect s (.regWrite index v) u := by
  cases hr : RegName.ofIndex index with
  | none =>
    simp only [hostRegWrite, hr] at h
    cases h; exact .busError (.regWrite index v) nofun .register index
  | some r =>
    simp only [hostRegWrite, hr] at h
    cases r with
    | operand x => cases h; exact .operandWritten index x v hr
    | cmd =>
      simp only [executeCommand_eq_commit] at h
      cases h; exact .commandRun index v hr
    | hi | lo | status | cfg => cases h; exact .unitKept (.regWrite index v) nofun s.answer s.draws

theorem transact_effect {t : HostTxn} {s u : State} (h : transact t s = .next u) : TxnEffect s t u := by
  cases t with
  | regRead index =>
    cases h
    unfold hostRegRead
    split
    · exact .busError (.regRead index) nofun .register index
    · exact .unitKept (.regRead index) nofun _ _
  | regWrite index v => exact hostRegWrite_effect h
  | bufRead addr =>
    cases h
    unfold hostBufRead
    split
    · split
      · exact .unitKept (.bufRead addr) nofun _ s.draws
      · exact .unitKept (.bufRead addr) nofun _ _
    · exact .busError (.bufRead addr) nofun .buffer addr
  | bufWrite addr b =>
    cases h
    unfold hostBufWrite
    split
    · exact .byteWritten addr b ‹_›
    · exact .busError (.bufWrite addr b) nofun .buffer addr
  | reset => cases h; exact .unitReset

/-- R63, R291: a step is idle, or performs the first pending transaction on the state that has taken it. -/
theorem step_effect {s t : State} (h : step s = .next t) :
    (s.pending = [] ∧ t = s) ∨
      ∃ txn rest, s.pending = txn :: rest ∧ TxnEffect (accept rest s) txn t := by
  cases hp : s.pending with
  | nil =>
    simp only [step, hostStep, hp, Host.Outcome.next.injEq] at h
    exact .inl ⟨rfl, h.symm⟩
  | cons txn rest =>
    rw [step_pending s txn rest hp] at h
    exact .inr ⟨txn, rest, rfl, transact_effect h⟩

/-! ### The invariant of the reachable states -/

/-- The invariant speaks of BUF, BUF_BYTES, STATUS, HI and LO only. -/
theorem State.Inv.congr {s t : State} (h : s.Inv) (hbuf : t.buf = s.buf) (hbytes : t.bufBytes = s.bufBytes)
    (hok : t.ok = s.ok) (herr : t.err = s.err) (hsticky : t.sticky = s.sticky) (hhi : t.hi = s.hi)
    (hlo : t.lo = s.lo) : t.Inv where
  bufWf := hbuf ▸ h.bufWf
  bufInRange := by rw [hbuf, hbytes]; exact h.bufInRange
  bufBytesRange := hbytes ▸ h.bufBytesRange
  errCode := herr ▸ h.errCode
  errReported := by rw [hok, herr, hsticky]; exact h.errReported
  placeholder := by rw [hok, herr, hhi, hlo]; exact h.placeholder

/-- R67: a BUF write inside BUF_BYTES keeps every written address inside it. -/
theorem applyWrite_inRange {write : Option (Nat × List Byte)} {m : Memory} {n : Nat}
    (hw : ∀ w, write = some w → w.1 + w.2.length ≤ n) (hm : ∀ c ∈ m, c.1 < n) : ∀ c ∈ applyWrite write m, c.1 < n := by
  cases write with
  | none => exact hm
  | some w => exact Memory.writeBytes_inRange w.2 m w.1 n (hw w rfl) hm

/-- R80, R81, R262, R269: the commit of an outcome whose BUF write lies inside BUF keeps the invariant. -/
theorem commit_inv {o : OpOutcome} {s : State} (hw : ∀ w, o.bufWrite = some w → w.1 + w.2.length ≤ s.bufBytes)
    (h : s.Inv) : (commit o s).Inv := by
  cases o with
  | success r write =>
    exact {
      bufWf := applyWrite_wf write s.buf h.bufWf
      bufInRange := applyWrite_inRange hw h.bufInRange
      bufBytesRange := h.bufBytesRange
      errCode := Nat.zero_le 5
      errReported := fun herr => absurd rfl herr
      placeholder := nofun }
  | tryFail =>
    exact { h with
      errCode := Nat.zero_le 5
      errReported := fun herr => absurd rfl herr
      placeholder := fun _ _ => ⟨rfl, rfl⟩ }
  | raise e =>
    exact { h with
      errCode := show e.code.toNat ≤ 5 by cases e <;> decide
      errReported := fun _ => ⟨rfl, rfl⟩
      placeholder := fun _ herr => by cases e <;> cases herr }
  | modelFault f => exact h.congr rfl rfl rfl rfl rfl rfl rfl

theorem applyReset_inv {s : State} (h : s.Inv) : (applyReset s).Inv where
  bufWf := applyReset_buf_wf s
  bufInRange := nofun
  bufBytesRange := h.bufBytesRange
  errCode := Nat.zero_le 5
  errReported := fun herr => absurd rfl herr
  placeholder := fun _ _ => ⟨rfl, rfl⟩

theorem TxnEffect.inv {s t : State} {txn : HostTxn} (he : TxnEffect s txn t) (h : s.Inv) : t.Inv := by
  cases he with
  | unitKept => exact h.congr rfl rfl rfl rfl rfl rfl rfl
  | operandWritten => apply h.congr <;> simp
  | commandRun =>
    exact commit_inv (fun w hw => commandOutcome_bufWrite_inRange hw) (h.congr rfl rfl rfl rfl rfl rfl rfl)
  | byteWritten addr b haddr =>
    exact { h with
      bufWf := Memory.write_wf s.buf addr b h.bufWf
      bufInRange := Memory.write_inRange s.buf addr s.bufBytes b haddr h.bufInRange }
  | busError => exact h.congr rfl rfl rfl rfl rfl rfl rfl
  | unitReset => exact applyReset_inv h

/-- Settles O52: taking the transaction touches nothing the invariant speaks of, and each effect keeps it. -/
theorem everyStepKeepsTheInvariant : Obligations.EveryStepKeepsTheInvariant := by
  intro s t hs h
  obtain ⟨-, rfl⟩ | ⟨txn, rest, -, he⟩ := step_effect h
  · exact hs
  · exact he.inv (hs.congr rfl rfl rfl rfl rfl rfl rfl)

/-! ### STICKY -/

/-- R31: no commit clears STICKY. -/
theorem commit_sticky {o : OpOutcome} {s : State} (h : s.sticky = true) : (commit o s).sticky = true := by
  cases o with
  | success | tryFail | modelFault => exact h
  | raise => rfl

/-- R31, R262: a commit that leaves ERR ≠ NONE and records no model fault is a strict failure's. -/
theorem commit_sticky_of_err {o : OpOutcome} {s : State} (hfaults : (commit o s).faults = s.faults)
    (herr : (commit o s).err ≠ 0) : (commit o s).sticky = true := by
  cases o with
  | success | tryFail => exact absurd rfl herr
  | raise => rfl
  | modelFault f => simp [commit_modelFault] at hfaults

theorem TxnEffect.sticky {s t : State} {txn : HostTxn} (he : TxnEffect s txn t) (ht : txn ≠ .reset)
    (h : s.sticky = true) : t.sticky = true := by
  cases he with
  | unitKept | byteWritten | busError => exact h
  | operandWritten => rwa [setOperand_sticky]
  | commandRun => exact commit_sticky h
  | unitReset => exact absurd rfl ht

/-- Settles O57: a strict failure sets STICKY at its commit, every effect but a reset keeps it, and a reset clears it. -/
theorem stickyIsSetByStrictFailuresAndClearedOnlyByReset :
    Obligations.StickyIsSetByStrictFailuresAndClearedOnlyByReset := by
  refine ⟨fun v s t h hfaults herr => ?_, fun s t h hs hne => ?_, fun s t h hreset => ?_⟩
  · rw [executeCommand_eq_commit] at h
    cases h
    exact commit_sticky_of_err hfaults herr
  · obtain ⟨-, rfl⟩ | ⟨txn, rest, hp, he⟩ := step_effect h
    · exact hs
    · exact he.sticky (fun ht => hne (by rw [hp, ht, List.head?_cons])) hs
  · obtain ⟨rest, hp⟩ := List.head?_eq_some_iff.mp hreset
    rw [step_pending s .reset rest hp] at h
    cases h
    rfl

/-! ### The fault record -/

/-- R269: a commit appends the fault of a model-fault outcome, and nothing in the other three. -/
theorem commit_faults (o : OpOutcome) (s : State) :
    ∃ more, (commit o s).faults = s.faults ++ more ∧ more.length ≤ 1 := by
  cases o with
  | success | tryFail | raise => exact ⟨[], (List.append_nil _).symm, Nat.zero_le 1⟩
  | modelFault f => exact ⟨[f], rfl, Nat.le_refl 1⟩

theorem TxnEffect.faults {s t : State} {txn : HostTxn} (he : TxnEffect s txn t) :
    ∃ more, t.faults = s.faults ++ more ∧ more.length ≤ 1 := by
  cases he with
  | unitKept | byteWritten | unitReset => exact ⟨[], (List.append_nil _).symm, Nat.zero_le 1⟩
  | operandWritten => exact ⟨[], by simp, Nat.zero_le 1⟩
  | commandRun _ v => exact commit_faults (commandOutcome v s) { s with cmd := v }
  | busError _ _ space index => exact ⟨[.hostBusError space index], rfl, Nat.le_refl 1⟩

/-- Settles O58: an idle step appends nothing, and a transaction appends as its effect says. -/
theorem recordedFaultsAreNeverCleared : Obligations.RecordedFaultsAreNeverCleared := by
  intro s t h
  obtain ⟨-, rfl⟩ | ⟨txn, rest, -, he⟩ := step_effect h
  · exact ⟨[], (List.append_nil _).symm, Nat.zero_le 1⟩
  · exact he.faults

end Sys2Proof.Machine
end

section
/-! The host's register accesses (10_state.md R20–R37, 20_memory.md R55): the Word a read returns, and the writes
that the unit ignores. -/

namespace Sys2Proof.Machine

/-- R20: the indices 0 to 3 name A, B, C and D. -/
theorem RegName.ofIndex_of_operandList {index : Nat} {x : OperandName}
    (h : [OperandName.A, .B, .C, .D][index]? = some x) : RegName.ofIndex index = some (.operand x) := by
  match index, h with
  | 0, h | 1, h | 2, h | 3, h => cases h; rfl

@[simp] theorem accept_operand (rest : List HostTxn) (s : State) (x : OperandName) :
    (accept rest s).operand x = s.operand x := by cases x <;> rfl

@[simp] theorem readRegister_accept (r : RegName) (rest : List HostTxn) (s : State) :
    readRegister r (accept rest s) = readRegister r s := by cases r <;> simp [readRegister, statusWord]

@[simp] theorem isDraw_accept (r : RegName) (rest : List HostTxn) (s : State) :
    isDraw r (accept rest s) = isDraw r s := by cases r <;> simp [isDraw]

/-- R55: a read of a mapped register answers its Word; a draw advances the count of draws. -/
theorem step_regRead {s : State} {rest : List HostTxn} {index : Nat} {r : RegName}
    (hp : s.pending = .regRead index :: rest) (hr : RegName.ofIndex index = some r) :
    step s = .next { s with
      pending := rest, hpc := s.hpc + 1, answer := .word (readRegister r s),
      draws := if isDraw r s then s.draws + 1 else s.draws } := by
  rw [step_pending s _ rest hp]
  simp only [transact, hostRegRead, hr, readRegister_accept, isDraw_accept, accept_draws]
  rfl

/-- The number of two bit vectors put together. -/
theorem toNat_append_eq_add {m n : Nat} (x : BitVec m) (y : BitVec n) :
    (x ++ y).toNat = x.toNat * 2 ^ n + y.toNat := by
  rw [BitVec.toNat_append, ← Nat.shiftLeft_add_eq_or_of_lt y.isLt, Nat.shiftLeft_eq]

/-- R28: STATUS as the sum of its three fields. -/
theorem statusWord_eq (s : State) : statusWord s = word (s.ok.toNat + 2 * s.err.toNat + 16 * s.sticky.toNat) := by
  apply BitVec.eq_of_toNat_eq
  have hok := s.ok.toNat_lt
  have herr := s.err.isLt
  have hsticky := s.sticky.toNat_lt
  simp only [statusWord, toNat_append_eq_add, BitVec.toNat_ofBool, BitVec.toNat_ofNat, word_toNat]
  omega

/-- R32: CFG as the sum of its fields, for a BUF_BYTES that fits in BUFSIZE. -/
theorem cfgWord_eq {n : Nat} (h : n < 2 ^ 32) :
    cfgWord n = word (256 + 2 ^ 16 * n + 2 ^ 48 * 1 + 2 ^ 64 * 0x5757552D32353600) := by
  apply BitVec.eq_of_toNat_eq
  simp only [cfgWord, toNat_append_eq_add, BitVec.toNat_ofNat, word_toNat]
  omega

/-- Settles O9: at each index, the Word that `readRegister` gives, which is no draw. -/
theorem regReadReturnsWholeRegister : Obligations.RegReadReturnsWholeRegister := by
  intro s rest index hp
  refine ⟨fun x v hx hv => ?_, ?_, ?_, ?_, ?_, ?_⟩
  · rw [step_regRead hp (RegName.ofIndex_of_operandList hx)]
    simp [readRegister, isDraw, show s.operand x = _ from hv]
  · rintro rfl; exact step_regRead hp rfl
  · rintro rfl; exact step_regRead hp rfl
  · rintro rfl; exact step_regRead hp rfl
  · rintro rfl
    rw [← statusWord_eq]
    exact step_regRead hp rfl
  · rintro rfl hn
    rw [← cfgWord_eq hn]
    exact step_regRead hp rfl

/-- Settles O10: the Word is the next draw. -/
theorem unwrittenOperandReadIsADraw : Obligations.UnwrittenOperandReadIsADraw := by
  intro s rest index x hp hx hw
  refine ⟨Config.drawWord s.draws, ?_⟩
  rw [step_regRead hp (RegName.ofIndex_of_operandList hx)]
  simp [readRegister, isDraw, hw]

/-- Settles O12: the indices 5 to 8 are HI, LO, STATUS and CFG, and the write of each is ignored. -/
theorem writesToReadOnlyRegistersAreIgnored : Obligations.WritesToReadOnlyRegistersAreIgnored := by
  intro s rest index v hp h5 h8
  refine ⟨.none, (step_pending s _ rest hp).trans ?_⟩
  obtain rfl | rfl | rfl | rfl : index = 5 ∨ index = 6 ∨ index = 7 ∨ index = 8 := by omega
  · rfl
  · rfl
  · rfl
  · rfl

end Sys2Proof.Machine
end

section
/-! The host's writes of operand registers and its accesses to BUF (20_memory.md R52, R58, R60), and the commands
that leave BUF alone (R51). -/

namespace Sys2Proof.Machine

/-! ### Writes of operand registers -/

/-- R60: a write of an operand register stores its Word. -/
theorem step_regWrite_operand {s : State} {rest : List HostTxn} {index : Nat} {v : Word} {x : OperandName}
    (hp : s.pending = .regWrite index v :: rest) (hr : RegName.ofIndex index = some (.operand x)) :
    step s = .next ((accept rest s).setOperand x v) := by
  rw [step_pending s _ rest hp]
  simp only [transact, hostRegWrite, hr]

/-- Settles O11: the indices 0 to 3 are A, B, C and D. -/
theorem regWriteStoresOperand : Obligations.RegWriteStoresOperand := by
  intro s rest v
  refine ⟨fun hp => ?_, fun hp => ?_, fun hp => ?_, fun hp => ?_⟩
  · exact step_regWrite_operand (x := .A) hp rfl
  · exact step_regWrite_operand (x := .B) hp rfl
  · exact step_regWrite_operand (x := .C) hp rfl
  · exact step_regWrite_operand (x := .D) hp rfl

/-! ### Accesses to BUF -/

theorem hostBufRead_written {s : State} {addr : Nat} {b : Byte} (h : addr < s.bufBytes)
    (hb : s.buf.read addr = some b) : hostBufRead addr s = { s with answer := .byte b } := by
  simp only [hostBufRead, if_pos h, hb]

theorem hostBufRead_unwritten {s : State} {addr : Nat} (h : addr < s.bufBytes) (hb : s.buf.read addr = none) :
    hostBufRead addr s = { s with answer := .byte (Config.drawByte s.draws), draws := s.draws + 1 } := by
  simp only [hostBufRead, if_pos h, hb]

theorem hostBufWrite_inRange {s : State} {addr : Nat} {b : Byte} (h : addr < s.bufBytes) :
    hostBufWrite addr b s = { s with buf := s.buf.write addr b } :=
  if_pos h

/-- Settles O13: the new BUF is the old one with the byte written, which `Memory.read_write` reads at each address. -/
theorem bufWriteSetsOneByte : Obligations.BufWriteSetsOneByte := by
  intro s rest addr b hp h
  refine ⟨s.buf.write addr b, ?_, ?_, fun addr' hne => ?_⟩
  · rw [step_pending s _ rest hp]
    exact congrArg Host.Outcome.next (hostBufWrite_inRange (s := accept rest s) h)
  · rw [Memory.read_write, if_pos rfl]
  · rw [Memory.read_write, if_neg hne]

/-- Settles O14: the byte of an unwritten address is the next draw. -/
theorem bufReadReturnsByte : Obligations.BufReadReturnsByte := by
  intro s rest addr hp h
  rw [step_pending s _ rest hp]
  refine ⟨fun b hb => ?_, fun hb => ⟨Config.drawByte s.draws, ?_⟩⟩
  · exact congrArg Host.Outcome.next (hostBufRead_written (s := accept rest s) h hb)
  · exact congrArg Host.Outcome.next (hostBufRead_unwritten (s := accept rest s) h hb)

/-! ### Accesses out of range -/

theorem hostRegRead_unmapped {n : Nat} (h : 9 ≤ n) (s : State) :
    hostRegRead n s = recordFault (.hostBusError .register n) s := by
  rw [hostRegRead, RegName.ofIndex_unmapped n h]

theorem hostRegWrite_unmapped {n : Nat} (h : 9 ≤ n) (v : Word) (s : State) :
    hostRegWrite n v s = .next (recordFault (.hostBusError .register n) s) := by
  rw [hostRegWrite, RegName.ofIndex_unmapped n h]

theorem hostBufRead_outOfRange {n : Nat} {s : State} (h : s.bufBytes ≤ n) :
    hostBufRead n s = recordFault (.hostBusError .buffer n) s :=
  if_neg (Nat.not_lt.mpr h)

theorem hostBufWrite_outOfRange {n : Nat} {s : State} (h : s.bufBytes ≤ n) (b : Byte) :
    hostBufWrite n b s = recordFault (.hostBusError .buffer n) s :=
  if_neg (Nat.not_lt.mpr h)

/-- Settles O15: each of the four accesses ends in `recordFault`, on the state that has taken the transaction. -/
theorem outOfRangeAccessIsRecorded : Obligations.OutOfRangeAccessIsRecorded := by
  intro s rest t space n hp h
  refine ⟨.none, (step_pending s t rest hp).trans ?_⟩
  obtain ⟨rfl, hn, rfl | ⟨v, rfl⟩⟩ | ⟨rfl, hn, rfl | ⟨b, rfl⟩⟩ := h
  · exact congrArg Host.Outcome.next (hostRegRead_unmapped hn (accept rest s))
  · exact hostRegWrite_unmapped hn v (accept rest s)
  · exact congrArg Host.Outcome.next (hostBufRead_outOfRange (s := accept rest s) hn)
  · exact congrArg Host.Outcome.next (hostBufWrite_outOfRange (s := accept rest s) hn b)

/-! ### Commands that leave BUF alone -/

/-- R51: no command but the two byte-string commands reads BUF. -/
theorem outcomeOf_withBuf {i : Instr} (hB : i ≠ .modExpB) (hTryB : i ≠ .tryModExpB) (s : State) (m : Memory) :
    outcomeOf i { s with buf := m } = outcomeOf i s :=
  outcomeOf_congr i (fun x _ w => by cases x <;> exact Iff.rfl) fun hi => (hi.elim hB hTryB).elim

/-- R67: the commit of an outcome without a BUF write carries BUF along, whatever it holds. -/
theorem commit_withBuf {o : OpOutcome} (h : o.bufWrite = none) (s : State) (m : Memory) :
    commit o { s with buf := m } = { commit o s with buf := m } := by
  cases o with
  | success r write => cases h; rfl
  | tryFail | raise e | modelFault f => rfl

/-- Settles O56: the outcome writes no BUF byte, so its commit keeps BUF, and it is the same for any other BUF. -/
theorem onlyByteStringCommandsUseBuf : Obligations.OnlyByteStringCommandsUseBuf := by
  intro i s m hB hTryB
  have hw : (outcomeOf i s).bufWrite = none := outcomeOf_bufWrite_none hB hTryB s
  refine ⟨commit (outcomeOf i s) s, exec_eq_commit i s, ?_, ?_⟩
  · rw [commit_buf, hw, applyWrite]
  · rw [exec_eq_commit, outcomeOf_withBuf hB hTryB, commit_withBuf hw]

end Sys2Proof.Machine
end

section
/-! The command word (30_encoding.md R70–R76, R83): its fields as numbers, the legal words as exactly the encodings,
and what a word of each kind does when it is written to CMD (R76, R79, 60_exceptions.md R261, R262). -/

namespace Sys2Proof.Machine

/-! ### The fields of a word as numbers -/

theorem toNat_opField (v : Word) : (opField v).toNat = v.toNat % 256 := by
  simp [opField, BitVec.extractLsb'_toNat]

theorem toNat_rndField (v : Word) : (rndField v).toNat = v.toNat / 2 ^ 8 % 8 := by
  simp [rndField, BitVec.extractLsb'_toNat, Nat.shiftRight_eq_div_pow]

theorem rndField_eq_zero_iff (v : Word) : rndField v = 0 ↔ v.toNat / 2 ^ 8 % 8 = 0 := by
  rw [← toNat_rndField, ← BitVec.toNat_inj]
  rfl

theorem reservedField_eq_zero_iff (v : Word) : reservedField v = 0 ↔ v.toNat / 2 ^ 11 = 0 := by
  have hv := v.isLt
  rw [← BitVec.toNat_inj, reservedField, BitVec.extractLsb'_toNat, Nat.shiftRight_eq_div_pow,
    Nat.mod_eq_of_lt (by omega)]
  rfl

theorem Op.mem_all (o : Op) : o ∈ Op.all := by
  cases o <;> decide

/-- R75: the assigned OP codes are the codes of the operations. -/
theorem mem_assignedOps_iff (c : BitVec 8) : c.toNat ∈ assignedOps ↔ ∃ o : Op, c = o.code := by
  have codes : assignedOps = Op.all.map fun o => o.code.toNat := rfl
  simp only [codes, List.mem_map, Op.mem_all, true_and, BitVec.toNat_inj, eq_comm]

/-- R72: among the assigned codes, those of the rounding commands are the codes of the operations that use RND. -/
theorem code_mem_roundingOps_iff (o : Op) : o.code.toNat ∈ roundingOps ↔ o.usesRnd = true := by
  cases o <;> decide

/-! ### The legal words are the encodings -/

/-- R83: the encoding of a command decodes to it, as a command or as a DOMAIN word. -/
theorem decode_encode (i : Instr) : decode (encode i) = if i.wellFormed then .op i else .domain i := by
  have hrnd : ¬ (i.op.usesRnd = false ∧ i.rndCode ≠ 0) := fun h => h.2 (i.rndCode_of_not_usesRnd h.1)
  simp only [decode, reservedField_encode, opField_encode, rndField_encode, Op.ofCode_code, Instr.ofOp_op,
    ne_eq, not_true_eq_false, if_false, if_neg hrnd]

/-- R70: a word with reserved bits 0, the OP of an operation, and RND 0 unless the operation uses it, is an encoding. -/
theorem eq_encode_ofOp {v : Word} {o : Op} (hres : reservedField v = 0#245) (hop : opField v = o.code)
    (hrnd : o.usesRnd = true ∨ rndField v = 0) : v = encode (Instr.ofOp o (RndField.ofCode (rndField v))) := by
  have hcode : (Instr.ofOp o (RndField.ofCode (rndField v))).rndCode = rndField v := by
    rw [Instr.rndCode_ofOp, RndField.code_ofCode]
    split
    · rfl
    · exact (hrnd.resolve_left ‹_›).symm
  calc v = reservedField v ++ rndField v ++ opField v := word_eq_fields v
    _ = 0#245 ++ rndField v ++ o.code := by rw [hres, hop]
    _ = encode (Instr.ofOp o (RndField.ofCode (rndField v))) := by rw [encode, hcode, Instr.op_ofOp]

/-- R70, R76: which words are encodings, by the numbers in their fields. -/
theorem exists_eq_encode_iff (v : Word) :
    (∃ i, v = encode i) ↔ v.toNat / 2 ^ 11 = 0 ∧ v.toNat % 256 ∈ assignedOps ∧
      (v.toNat % 256 ∈ roundingOps ∨ v.toNat / 2 ^ 8 % 8 = 0) := by
  rw [← reservedField_eq_zero_iff, ← rndField_eq_zero_iff, ← toNat_opField]
  constructor
  · rintro ⟨i, rfl⟩
    rw [reservedField_encode, opField_encode, rndField_encode, mem_assignedOps_iff, code_mem_roundingOps_iff]
    refine ⟨rfl, ⟨i.op, rfl⟩, ?_⟩
    cases hi : i.op.usesRnd with
    | true => exact .inl rfl
    | false => exact .inr (i.rndCode_of_not_usesRnd hi)
  · rintro ⟨hres, hop, hrnd⟩
    obtain ⟨o, ho⟩ := (mem_assignedOps_iff _).mp hop
    rw [ho, code_mem_roundingOps_iff] at hrnd
    exact ⟨_, eq_encode_ofOp hres ho hrnd⟩

/-- R74, R76: a word that the decoder does not reject is the encoding of a command. -/
theorem exists_eq_encode_of_decode_ne_illegal {v : Word} (h : decode v ≠ .illegal) : ∃ i, v = encode i := by
  unfold decode at h
  split at h
  · exact absurd rfl h
  next hres =>
    split at h
    · exact absurd rfl h
    next o ho =>
      split at h
      · exact absurd rfl h
      next hrnd =>
        have hrnd : o.usesRnd = true ∨ rndField v = 0 := by
          rwa [not_and_or, not_not, Bool.not_eq_false] at hrnd
        exact ⟨_, eq_encode_ofOp (not_not.mp hres) (Op.code_of_ofCode _ o ho).symm hrnd⟩

/-- R76: the illegal words are those that encode no command. -/
theorem decode_eq_illegal_iff (v : Word) : decode v = .illegal ↔ ¬ ∃ i, v = encode i := by
  constructor
  · rintro h ⟨i, rfl⟩
    rw [decode_encode] at h
    split at h <;> cases h
  · intro h
    by_contra hv
    exact h (exists_eq_encode_of_decode_ne_illegal hv)

/-- Settles O1: a word that is not illegal is an encoding, and what an encoding decodes to is `decode_encode`. -/
theorem decodeIsExactlyEncode : Obligations.DecodeIsExactlyEncode := by
  refine ⟨fun v i => ⟨fun h => ?_, ?_⟩, fun v i => ⟨fun h => ?_, ?_⟩⟩
  · obtain ⟨j, rfl⟩ := exists_eq_encode_of_decode_ne_illegal (v := v) (by simp [h])
    rw [decode_encode] at h
    split at h
    · cases h; exact ⟨‹_›, rfl⟩
    · cases h
  · rintro ⟨hwf, rfl⟩
    rw [decode_encode, if_pos hwf]
  · obtain ⟨j, rfl⟩ := exists_eq_encode_of_decode_ne_illegal (v := v) (by simp [h])
    rw [decode_encode] at h
    split at h
    · cases h
    · cases h; exact ⟨Bool.eq_false_iff.mpr ‹_›, rfl⟩
  · rintro ⟨hwf, rfl⟩
    rw [decode_encode, hwf]
    rfl

/-! ### What each kind of word does when it is written to CMD -/

/-- R76, R262. -/
theorem executeCommand_illegal {v : Word} (h : decode v = .illegal) (s : State) :
    executeCommand v s = .next { s with cmd := v, ok := false, err := 4, sticky := true } := by
  rw [executeCommand_eq_commit, commandOutcome, h]
  rfl

/-- R261, R262. -/
theorem executeCommand_domain {v : Word} {i : Instr} (h : decode v = .domain i) (s : State) :
    executeCommand v s = .next { s with cmd := v, ok := false, err := 3, sticky := true } := by
  rw [executeCommand_eq_commit, commandOutcome, h]
  rfl

/-- R79. -/
theorem executeCommand_op {v : Word} {i : Instr} (h : decode v = .op i) (s : State) :
    executeCommand v s = exec i { s with cmd := v } := by
  rw [executeCommand, h]

/-- Settles O2: the illegal words are those that are no encoding, whose fields `exists_eq_encode_iff` gives. -/
theorem illegalWordsEndInIllegalCommand : Obligations.IllegalWordsEndInIllegalCommand := by
  intro v
  refine ⟨?_, executeCommand_illegal⟩
  rw [decode_eq_illegal_iff, exists_eq_encode_iff]
  tauto

/-- Settles O3: the word encodes a rounding command whose RND field names no Rounding, so it is a DOMAIN word. -/
theorem reservedRndEndsInDomain : Obligations.ReservedRndEndsInDomain := by
  intro v s hres hop hrnd
  rw [← reservedField_eq_zero_iff] at hres
  rw [← toNat_opField] at hop
  rw [← toNat_rndField] at hrnd
  have assigned : roundingOps ⊆ assignedOps := by decide
  obtain ⟨o, ho⟩ := (mem_assignedOps_iff _).mp (assigned hop)
  have huses : o.usesRnd = true := (code_mem_roundingOps_iff o).mp (ho ▸ hop)
  have hwf : (Instr.ofOp o (RndField.ofCode (rndField v))).wellFormed = false := by
    rw [Instr.wellFormed_ofOp, huses, (RndField.wellFormed_false_iff _).mpr (by rwa [RndField.code_ofCode])]
    rfl
  exact executeCommand_domain ((decodeIsExactlyEncode.2 v _).mpr ⟨hwf, eq_encode_ofOp hres ho (.inl huses)⟩) s

/-- Settles O7: the step is the transaction's, and a write of index 4 is `executeCommand`. -/
theorem stepRunsDecodedCommand : Obligations.StepRunsDecodedCommand := by
  intro s v rest hp
  have hstep : step s = executeCommand v (accept rest s) := step_pending s _ rest hp
  refine ⟨hstep, fun h => ?_, fun i h => ⟨?_, ?_⟩, fun i h => ⟨?_, ?_⟩⟩
  · exact hstep.trans (executeCommand_illegal h _)
  · exact ((decodeIsExactlyEncode.2 v i).mp h).1
  · exact hstep.trans (executeCommand_domain h _)
  · exact ((decodeIsExactlyEncode.1 v i).mp h).1
  · exact hstep.trans (executeCommand_op h _)

/-! ### The assembler and the words it emits -/

/-- R83: a command that the assembler accepts is an operation with a Rounding. -/
theorem assembleCommand_eq_ofOp {m : String} {suffix : Option String} {i : Instr}
    (h : assembleCommand m suffix = some i) : ∃ o r, i = Instr.ofOp o (.mode r) := by
  unfold assembleCommand at h
  split at h
  · cases h
  · cases h; exact ⟨_, _, rfl⟩
  · split at h
    · cases h
    · split at h
      · cases h; exact ⟨_, _, rfl⟩
      · cases h

/-- Settles O6: the field of a command with a Rounding is well formed. -/
theorem assemblerEmitsOnlyLegalWords : Obligations.AssemblerEmitsOnlyLegalWords := by
  intro m suffix i h
  obtain ⟨o, r, rfl⟩ := assembleCommand_eq_ofOp h
  have hwf : (Instr.ofOp o (.mode r)).wellFormed = true := by
    rw [Instr.wellFormed_ofOp, RndField.wellFormed, Bool.or_true]
  rw [decode_encode, if_pos hwf]

/-- Settles O4: the word is its three fields put together, the reserved bits 0. -/
theorem commandWordIsOpPlus256Rnd : Obligations.CommandWordIsOpPlus256Rnd := by
  intro i
  refine ⟨?_, (mem_assignedOps_iff _).mpr ⟨i.op, rfl⟩, fun h => ?_⟩
  · rw [encode, toNat_append_eq_add, toNat_append_eq_add, BitVec.toNat_ofNat]
    omega
  · rw [code_mem_roundingOps_iff, Bool.not_eq_true] at h
    exact i.rndCode_of_not_usesRnd h

/-- Settles O5: each of the seven words is the encoding of its command, and no command has the OP code 0. -/
theorem specWordsDecode : Obligations.SpecWordsDecode := by
  refine ⟨decode_encode .add512, decode_encode .mulDiv, decode_encode (.mulDivR (.mode .ceil)),
    decode_encode (.sqrt (.mode .ceil)), decode_encode (.log10 (.mode .floor)), decode_encode .clz,
    decode_encode .modExpB, ?_⟩
  exact (illegalWordsEndInIllegalCommand 0).1.mpr (.inl (by decide))

end Sys2Proof.Machine
end

section
/-! Invalid descriptors (30_encoding.md R78, 60_exceptions.md R264): the byte-string rule ends in BAD_DESCRIPTOR before
it reads BUF. -/

namespace Sys2Proof.Machine

/-- R78: an input form ends in BAD_DESCRIPTOR if its descriptor is invalid or the rest of the rule ends there. -/
theorem withInput_badDescriptor {n : Nat} {v : Word} {k : Nat → Nat → OpOutcome}
    (h : (v.toNat / 2 ^ 64 ≠ 0 ∨ n < v.toNat % 2 ^ 32 + v.toNat / 2 ^ 32 % 2 ^ 32) ∨
      k (v.toNat % 2 ^ 32) (v.toNat / 2 ^ 32 % 2 ^ 32) = .raise .badDescriptor) :
    withInput n v k = .raise .badDescriptor := by
  rw [withInput, inputDescriptor_eq]
  split_ifs with hv
  · rfl
  · exact h.resolve_left hv

theorem withOutput_badDescriptor {n len : Nat} {v : Word} (k : Nat → OpOutcome)
    (h : v.toNat / 2 ^ 32 ≠ 0 ∨ n < v.toNat % 2 ^ 32 + len) : withOutput n len v k = .raise .badDescriptor := by
  rw [withOutput, outputDescriptor_eq, if_pos h]

/-- R78, R264: the four descriptors are judged before any byte of BUF is read. -/
theorem modExpBRule_badDescriptor {n : Nat} {a b c d : Word} (h : InvalidDescriptor n a b c d) (zeroModulus : OpOutcome)
    (m : Memory) : modExpBRule zeroModulus n m a b c d = .raise .badDescriptor := by
  obtain ⟨v, hv, hbad⟩ | hbad := h
  · simp only [List.mem_cons, List.not_mem_nil, or_false] at hv
    obtain rfl | rfl | rfl := hv
    · exact withInput_badDescriptor (.inl hbad)
    · exact withInput_badDescriptor (.inr (withInput_badDescriptor (.inl hbad)))
    · exact withInput_badDescriptor (.inr (withInput_badDescriptor (.inr (withInput_badDescriptor (.inl hbad)))))
  · exact withInput_badDescriptor (.inr (withInput_badDescriptor (.inr (withInput_badDescriptor (.inr
      (withOutput_badDescriptor _ hbad))))))

/-- Settles O49: both forms are `modExpBRule` on the four Words, whatever BUF holds. -/
theorem badDescriptorFailsBothForms : Obligations.BadDescriptorFailsBothForms := by
  intro s m a b c d ha hb hc hd hbad i hi
  have fails (zeroModulus : OpOutcome) :
      withABCD { s with buf := m } (modExpBRule zeroModulus s.bufBytes m) = .raise .badDescriptor :=
    (withABCD_holds { s with buf := m } a b c d _ ha hb hc hd).trans (modExpBRule_badDescriptor hbad zeroModulus m)
  have outcome : outcomeOf i { s with buf := m } = .raise .badDescriptor := by
    simp only [List.mem_cons, List.not_mem_nil, or_false] at hi
    obtain rfl | rfl := hi
    · exact fails _
    · exact fails _
  rw [exec_eq_commit, outcome]
  rfl

end Sys2Proof.Machine
end

section
/-! WideWord and CheckedArithmetic (40_wideword.md R100–R105): the four commands commit one exact number, as a
double-width value or as a checked Word. -/

namespace Sys2Proof.Machine

/-! ### The exact sum and product of two Words -/

theorem toNat_add_toNat_lt (a b : Word) : a.toNat + b.toNat < 2 * 2 ^ 256 := by
  have ha := a.isLt
  have hb := b.isLt
  omega

/-- R101: a product is at most (2^256 − 1)², so its high Word is at most 2^256 − 2. -/
theorem toNat_mul_toNat_lt (a b : Word) : a.toNat * b.toNat < (2 ^ 256 - 1) * 2 ^ 256 := by
  have hmul : a.toNat * b.toNat ≤ (2 ^ 256 - 1) * (2 ^ 256 - 1) :=
    Nat.mul_le_mul (Nat.le_sub_one_of_lt a.isLt) (Nat.le_sub_one_of_lt b.isLt)
  omega

/-- R104: the low Word of the exact sum is the wrap-around sum. -/
theorem word_sum (a b : Word) : word (a.toNat + b.toNat) = a + b := (BitVec.add_def a b).symm

/-- R105: the low Word of the exact product is the wrap-around product. -/
theorem word_product (a b : Word) : word (a.toNat * b.toNat) = a * b := by
  rw [← BitVec.toNat_inj, word_toNat, BitVec.toNat_mul]

/-- R105: a Word is its two 128-bit halves put together. -/
theorem toNat_eq_halves (a : Word) : a.toNat = (a >>> 128).toNat * 2 ^ 128 + (a.setWidth 128).toNat := by
  rw [BitVec.toNat_ushiftRight, BitVec.toNat_setWidth, Nat.shiftRight_eq_div_pow, Nat.div_add_mod']

/-- R105: the product formed from the four products of halves. -/
theorem mul_eq_limb_products (aH aL bH bL : Nat) :
    (aH * 2 ^ 128 + aL) * (bH * 2 ^ 128 + bL) = aH * bH * 2 ^ 256 + (aH * bL + aL * bH) * 2 ^ 128 + aL * bL := by
  ring

/-! ### A double-width value as two Words -/

theorem toNat_highWord {n : Nat} (h : n < 2 ^ 512) : (word (n / 2 ^ 256)).toNat = n / 2 ^ 256 := by
  rw [word_toNat, Nat.mod_eq_of_lt (by omega)]

theorem word_mod (n : Nat) : word (n % 2 ^ 256) = word n := by
  rw [← BitVec.toNat_inj, word_toNat, word_toNat, Nat.mod_mod]

/-- R8: the two Words of a double-width value have that value. -/
theorem wideWords_value {n : Nat} (h : n < 2 ^ 512) :
    (word (n / 2 ^ 256)).toNat * 2 ^ 256 + (word (n % 2 ^ 256)).toNat = n := by
  rw [toNat_highWord h, word_toNat, Nat.mod_mod, Nat.div_add_mod']

theorem highWord_ne_zero_iff {n : Nat} (h : n < 2 ^ 512) : word (n / 2 ^ 256) ≠ 0 ↔ 2 ^ 256 ≤ n := by
  rw [ne_eq, ← BitVec.toNat_inj, toNat_highWord h, show (0 : Word).toNat = 0 from rfl]
  omega

/-- R100: below 2^257 the high Word is 0 or 1. -/
theorem highWord_eq_one_iff {n : Nat} (h : n < 2 * 2 ^ 256) : word (n / 2 ^ 256) = 1 ↔ 2 ^ 256 ≤ n := by
  rw [← BitVec.toNat_inj, toNat_highWord (by omega), show (1 : Word).toNat = 1 from rfl]
  omega

/-! ### The four commands on written operands, and the two ways they commit an exact number -/

section
variable {s : State} {a b : Word} (ha : s.Holds .A a) (hb : s.Holds .B b)
include ha hb

/-- R100. -/
theorem exec_add512 : exec .add512 s = .next (commit (wideResult (a.toNat + b.toNat)) s) := by
  rw [exec_eq_commit, outcomeOf, withAB_holds s a b _ ha hb]

/-- R101. -/
theorem exec_mul512 : exec .mul512 s = .next (commit (wideResult (a.toNat * b.toNat)) s) := by
  rw [exec_eq_commit, outcomeOf, withAB_holds s a b _ ha hb]

/-- R102. -/
theorem exec_tryAdd : exec .tryAdd s = .next (commit (fittingResult .tryFail (a.toNat + b.toNat)) s) := by
  rw [exec_eq_commit, outcomeOf, withAB_holds s a b _ ha hb]

/-- R103. -/
theorem exec_tryMul : exec .tryMul s = .next (commit (fittingResult .tryFail (a.toNat * b.toNat)) s) := by
  rw [exec_eq_commit, outcomeOf, withAB_holds s a b _ ha hb]

end

/-- R100, R101: a double-width commit writes an exact number to HI and LO, and never fails. -/
theorem exec_wideResult {i : Instr} {s : State} {n : Nat} (hexec : exec i s = .next (commit (wideResult n) s))
    (h : n < 2 ^ 512) :
    ∃ hi lo : Word, exec i s = .next { s with hi := hi, lo := lo, ok := true, err := 0 } ∧
      hi.toNat * 2 ^ 256 + lo.toNat = n ∧ hi.toNat = n / 2 ^ 256 :=
  ⟨_, _, hexec.trans (congrArg _ (commit_wideResult n s)), wideWords_value h, toNat_highWord h⟩

/-- R102, R103: a checked commit writes an exact number to LO if it fits, and is the try failure otherwise. -/
theorem exec_fittingResult_tryFail {i : Instr} {s : State} {n : Nat}
    (hexec : exec i s = .next (commit (fittingResult .tryFail n) s)) :
    (n < 2 ^ 256 → ∃ r : Word, r.toNat = n ∧
      exec i s = .next { s with hi := 0, lo := r, ok := true, err := 0 }) ∧
    (2 ^ 256 ≤ n → exec i s = .next { s with hi := 0, lo := 0, ok := false, err := 0 }) := by
  constructor
  · intro fits
    refine ⟨word n, ?_, ?_⟩
    · rw [word_toNat, Nat.mod_eq_of_lt fits]
    · rw [hexec, fittingResult_fits _ _ fits, commit_wordResult]
  · intro overflows
    rw [hexec, fittingResult_overflows _ _ overflows, commit_tryFail]

/-- R104, R105: the two commits of one exact number agree. The try form fails exactly when the high Word is not 0,
and otherwise both write the same LO. -/
theorem commit_fittingResult_agrees_wideResult {n : Nat} (h : n < 2 ^ 512) (s : State) :
    ((commit (fittingResult .tryFail n) s).ok = false ↔ (commit (wideResult n) s).hi ≠ 0) ∧
    ((commit (fittingResult .tryFail n) s).ok = true →
      (commit (fittingResult .tryFail n) s).lo = (commit (wideResult n) s).lo) := by
  have hhi : (commit (wideResult n) s).hi ≠ 0 ↔ 2 ^ 256 ≤ n := highWord_ne_zero_iff h
  have hlo : (commit (wideResult n) s).lo = word n := word_mod n
  rw [hhi, hlo]
  obtain ⟨fits, hres⟩ | ⟨overflows, hres⟩ := fittingResult_cases .tryFail n
  · rw [hres, commit_wordResult]
    exact ⟨iff_of_false nofun (by omega), fun _ => rfl⟩
  · rw [hres, commit_tryFail]
    exact ⟨iff_of_true rfl overflows, nofun⟩

/-! ### The statements -/

/-- Settles O18: ADD512 commits the exact sum as a double-width value. -/
theorem add512GivesExactSum : Obligations.Add512GivesExactSum := by
  refine ⟨decode_encode .add512, fun s a b ha hb => ?_⟩
  have hsum := toNat_add_toNat_lt a b
  obtain ⟨hi, lo, hexec, hvalue, hhi⟩ := exec_wideResult (exec_add512 ha hb) (by omega)
  exact ⟨hi, lo, hexec, hvalue, by omega⟩

/-- Settles O19: MUL512 commits the exact product as a double-width value. -/
theorem mul512GivesExactProduct : Obligations.Mul512GivesExactProduct := by
  refine ⟨decode_encode .mul512, fun s a b ha hb => ?_⟩
  have hproduct := toNat_mul_toNat_lt a b
  obtain ⟨hi, lo, hexec, hvalue, hhi⟩ := exec_wideResult (exec_mul512 ha hb) (by omega)
  exact ⟨hi, lo, hexec, hvalue, by omega⟩

/-- Settles O20: TRYADD commits the exact sum as a checked Word. -/
theorem tryAddGivesSumOrFails : Obligations.TryAddGivesSumOrFails :=
  ⟨decode_encode .tryAdd, fun _ _ _ ha hb => exec_fittingResult_tryFail (exec_tryAdd ha hb)⟩

/-- Settles O21: TRYMUL commits the exact product as a checked Word. -/
theorem tryMulGivesProductOrFails : Obligations.TryMulGivesProductOrFails :=
  ⟨decode_encode .tryMul, fun _ _ _ ha hb => exec_fittingResult_tryFail (exec_tryMul ha hb)⟩

/-- Settles O22: both commands commit the exact sum, whose high Word is 0 or 1. -/
theorem add512AndTryAddAgree : Obligations.Add512AndTryAddAgree := by
  intro s a b ha hb
  have hsum := toNat_add_toNat_lt a b
  have hwide : a.toNat + b.toNat < 2 ^ 512 := by omega
  obtain ⟨fails_iff, lo_eq⟩ := commit_fittingResult_agrees_wideResult hwide s
  refine ⟨_, _, exec_add512 ha hb, exec_tryAdd ha hb, fails_iff, ?_, lo_eq, ?_⟩
  · exact fails_iff.trans ((highWord_ne_zero_iff hwide).trans (highWord_eq_one_iff hsum).symm)
  · exact (word_mod _).trans (word_sum a b)

/-- Settles O23: both commands commit the exact product, which is also the sum of the four limb products. -/
theorem mul512AndTryMulAgree : Obligations.Mul512AndTryMulAgree := by
  intro s a b ha hb
  have hproduct := toNat_mul_toNat_lt a b
  have hwide : a.toNat * b.toNat < 2 ^ 512 := by omega
  obtain ⟨fails_iff, lo_eq⟩ := commit_fittingResult_agrees_wideResult hwide s
  refine ⟨_, _, exec_mul512 ha hb, exec_tryMul ha hb, fails_iff, lo_eq, ?_, ?_⟩
  · exact (word_mod _).trans (word_product a b)
  · refine (wideWords_value hwide).trans ?_
    rw [toNat_eq_halves a, toNat_eq_halves b, mul_eq_limb_products]

end Sys2Proof.Machine
end

section
/-! DivisionOps (41_division.md R130–R138): the ceiling and the rounded quotient as natural numbers, the two rules the
six commands share in terms of them, and what a commit of each rule answers. A strict form and its try form are one
lemma, used with two pairs of failure outcomes. -/

namespace Sys2Proof.Machine

/-! ### The ceiling quotient -/

/-- R130: the spelling of the ceiling quotient in `ceilDivRule`. -/
theorem ite_pred_div_eq_ceilDiv (n : Nat) {d : Nat} (hd : 0 < d) :
    (if n = 0 then 0 else (n - 1) / d + 1) = n ⌈/⌉ d := by
  split_ifs with hn
  · rw [hn, zero_ceilDiv]
  · rw [Nat.ceilDiv_eq_add_pred_div, ← Nat.add_div_right _ hd, Nat.sub_add_comm (by omega)]

/-- R134: the spelling of the ceiling quotient in `mulDivRule`, by the remainder. -/
theorem ite_mod_div_eq_ceilDiv (n : Nat) {d : Nat} (hd : 0 < d) :
    (if n % d ≠ 0 then n / d + 1 else n / d) = n ⌈/⌉ d := by
  have hdiv := Nat.div_add_mod n d
  have hmod := Nat.mod_lt n hd
  refine eq_of_forall_ge_iff fun c => ?_
  rw [ceilDiv_le_iff_le_mul hd]
  split_ifs with hr
  · rw [Nat.succ_le_iff, Nat.div_lt_iff_lt_mul hd, Nat.mul_comm c]
    refine ⟨Nat.le_of_lt, fun hle => lt_of_le_of_ne hle ?_⟩
    rintro rfl
    exact hr (Nat.mul_mod_right d c)
  · rw [← Nat.mul_le_mul_left_iff hd, show d * (n / d) = n by omega]

/-- R138: the ceiling quotient is the least whose multiple of the divisor reaches the dividend. -/
theorem ceilDiv_bracket (n : Nat) {d : Nat} (hd : 0 < d) :
    n ≤ n ⌈/⌉ d * d ∧ (n ⌈/⌉ d ≠ 0 → (n ⌈/⌉ d - 1) * d < n) := by
  constructor
  · rw [Nat.mul_comm]
    exact le_smul_ceilDiv hd
  · intro hne
    rw [Nat.mul_comm, ← not_le, ← ceilDiv_le_iff_le_mul hd]
    omega

theorem ceilDiv_eq_zero_iff (n : Nat) {d : Nat} (hd : 0 < d) : n ⌈/⌉ d = 0 ↔ n = 0 := by
  rw [← Nat.le_zero, ceilDiv_le_iff_le_mul hd, Nat.mul_zero, Nat.le_zero]

theorem ceilDiv_le_self (n : Nat) {d : Nat} (hd : 0 < d) : n ⌈/⌉ d ≤ n :=
  (ceilDiv_le_iff_le_mul hd).mpr (Nat.le_mul_of_pos_left n hd)

/-! ### The rounded quotient -/

/-- R134: the quotient a Rounding asks for: the ceiling if it rounds up, else the floor. -/
def roundedQuotient (up : Bool) (n d : Nat) : Nat := if up then n ⌈/⌉ d else n / d

theorem roundedQuotient_down (n d : Nat) : roundedQuotient false n d = n / d := rfl

theorem roundedQuotient_up (n d : Nat) : roundedQuotient true n d = n ⌈/⌉ d := rfl

/-- R134: Floor and Trunc bracket the dividend from below, Ceil and Expand from above. -/
theorem roundedQuotient_bracket (r : Rounding) (n : Nat) {d : Nat} (hd : 0 < d) :
    if r = .floor ∨ r = .trunc then
      roundedQuotient (roundsUp r) n d * d ≤ n ∧ n < (roundedQuotient (roundsUp r) n d + 1) * d
    else
      n ≤ roundedQuotient (roundsUp r) n d * d ∧
        (roundedQuotient (roundsUp r) n d ≠ 0 → (roundedQuotient (roundsUp r) n d - 1) * d < n) := by
  have floor_bracket : n / d * d ≤ n ∧ n < (n / d + 1) * d :=
    ⟨Nat.div_mul_le_self n d, (Nat.div_lt_iff_lt_mul hd).mp (Nat.lt_succ_self _)⟩
  have ceil_bracket := ceilDiv_bracket n hd
  cases r with
  | floor => exact floor_bracket
  | ceil => exact ceil_bracket
  | trunc => exact floor_bracket
  | expand => exact ceil_bracket

/-! ### The two rules -/

theorem ceilDivRule_zero (z : OpOutcome) (a : Word) : ceilDivRule z a 0 = z := rfl

theorem ceilDivRule_of_ne_zero (z : OpOutcome) (a : Word) {b : Word} (hb : b ≠ 0) :
    ceilDivRule z a b = wordResult (a.toNat ⌈/⌉ b.toNat) := by
  have hpos := BitVec.toNat_pos_of_ne_zero hb
  rw [ceilDivRule, if_neg hpos.ne', ite_pred_div_eq_ceilDiv _ hpos]

theorem mulDivRule_zero (z o : OpOutcome) (up : Bool) (x y : Word) : mulDivRule z o up x y 0 = z := rfl

theorem mulDivRule_of_ne_zero (z o : OpOutcome) (up : Bool) (x y : Word) {d : Word} (hd : d ≠ 0) :
    mulDivRule z o up x y d = fittingResult o (roundedQuotient up (x.toNat * y.toNat) d.toNat) := by
  have hpos := BitVec.toNat_pos_of_ne_zero hd
  rw [mulDivRule, if_neg hpos.ne']
  cases up with
  | false => rfl
  | true => simp only [true_and, ite_mod_div_eq_ceilDiv _ hpos, roundedQuotient_up]

/-- R130: the ceiling quotient of two Words fits in a Word. -/
theorem ceilDiv_toNat_lt (a : Word) {b : Word} (hb : b ≠ 0) : a.toNat ⌈/⌉ b.toNat < 2 ^ 256 :=
  (ceilDiv_le_self _ (BitVec.toNat_pos_of_ne_zero hb)).trans_lt a.isLt

theorem toNat_word_ceilDiv (a : Word) {b : Word} (hb : b ≠ 0) :
    (word (a.toNat ⌈/⌉ b.toNat)).toNat = a.toNat ⌈/⌉ b.toNat := by
  rw [word_toNat, Nat.mod_eq_of_lt (ceilDiv_toNat_lt a hb)]

/-- R130, R138: the bracket of the ceiling quotient, as a Word. -/
theorem word_ceilDiv_bracket (a : Word) {b r : Word} (hb : b ≠ 0) (hr : r = word (a.toNat ⌈/⌉ b.toNat)) :
    a.toNat ≤ r.toNat * b.toNat ∧ (r ≠ 0 → (r.toNat - 1) * b.toNat < a.toNat) ∧ (r = 0 ↔ a = 0) := by
  have hpos := BitVec.toNat_pos_of_ne_zero hb
  obtain ⟨above, below⟩ := ceilDiv_bracket a.toNat hpos
  have zero_iff (v : Word) : v = 0 ↔ v.toNat = 0 := BitVec.toNat_inj.symm
  rw [ne_eq, zero_iff r, zero_iff a, hr, toNat_word_ceilDiv a hb]
  exact ⟨above, below, ceilDiv_eq_zero_iff _ hpos⟩

/-- R138: by one, the multiply-divide rule that rounds up is the ceiling rule; its quotient always fits. -/
theorem mulDivRule_up_by_one (z o : OpOutcome) (a b : Word) : mulDivRule z o true a 1 b = ceilDivRule z a b := by
  by_cases hb : b = 0
  · rw [hb, mulDivRule_zero, ceilDivRule_zero]
  · rw [mulDivRule_of_ne_zero z o true a 1 hb, ceilDivRule_of_ne_zero z a hb, roundedQuotient_up,
      show (1 : Word).toNat = 1 from rfl, Nat.mul_one, fittingResult_fits o _ (ceilDiv_toNat_lt a hb)]

/-! ### The six commands on written operands -/

section
variable {s : State} {a b : Word} (ha : s.Holds .A a) (hb : s.Holds .B b)
include ha hb

/-- R130. -/
theorem exec_ceilDiv : exec .ceilDiv s = .next (commit (ceilDivRule (.raise .divisionByZero) a b) s) := by
  rw [exec_eq_commit, outcomeOf, withAB_holds s a b _ ha hb]

/-- R131. -/
theorem exec_tryCeilDiv : exec .tryCeilDiv s = .next (commit (ceilDivRule .tryFail a b) s) := by
  rw [exec_eq_commit, outcomeOf, withAB_holds s a b _ ha hb]

end

section
variable {s : State} {x y d : Word} (hx : s.Holds .A x) (hy : s.Holds .B y) (hd : s.Holds .C d)
include hx hy hd

/-- R132. -/
theorem exec_mulDiv :
    exec .mulDiv s = .next (commit (mulDivRule (.raise .divisionByZero) (.raise .overflow) false x y d) s) := by
  rw [exec_eq_commit, outcomeOf, withABC_holds s x y d _ hx hy hd]

/-- R133. -/
theorem exec_tryMulDiv : exec .tryMulDiv s = .next (commit (mulDivRule .tryFail .tryFail false x y d) s) := by
  rw [exec_eq_commit, outcomeOf, withABC_holds s x y d _ hx hy hd]

/-- R134. -/
theorem exec_mulDivR (r : Rounding) : exec (.mulDivR (.mode r)) s =
    .next (commit (mulDivRule (.raise .divisionByZero) (.raise .overflow) (roundsUp r) x y d) s) := by
  rw [exec_eq_commit, outcomeOf, withRounding_mode, withABC_holds s x y d _ hx hy hd]

/-- R135. -/
theorem exec_tryMulDivR (r : Rounding) : exec (.tryMulDivR (.mode r)) s =
    .next (commit (mulDivRule .tryFail .tryFail (roundsUp r) x y d) s) := by
  rw [exec_eq_commit, outcomeOf, withRounding_mode, withABC_holds s x y d _ hx hy hd]

end

/-! ### What a commit of each rule answers -/

section
variable {i : Instr} {s : State} {z : OpOutcome} {a b : Word} (hexec : exec i s = .next (commit (ceilDivRule z a b) s))
include hexec

/-- R130, R131, b = 0. -/
theorem exec_ceilDivRule_zero (hb : b = 0) : exec i s = .next (commit z s) := by
  rw [hexec, hb, ceilDivRule_zero]

/-- R130, R131, b > 0. -/
theorem exec_ceilDivRule_of_ne_zero (hb : b ≠ 0) : exec i s =
    .next { s with hi := 0, lo := word (a.toNat ⌈/⌉ b.toNat), ok := true, err := 0 } := by
  rw [hexec, ceilDivRule_of_ne_zero z a hb, commit_wordResult]

end

section
variable {i : Instr} {s : State} {z o : OpOutcome} {up : Bool} {x y d : Word}
  (hexec : exec i s = .next (commit (mulDivRule z o up x y d) s))
include hexec

/-- R132–R135, d = 0. -/
theorem exec_mulDivRule_zero (hd : d = 0) : exec i s = .next (commit z s) := by
  rw [hexec, hd, mulDivRule_zero]

/-- R132–R135: the rounded quotient fits. -/
theorem exec_mulDivRule_fits (hd : d ≠ 0) (fits : roundedQuotient up (x.toNat * y.toNat) d.toNat < 2 ^ 256) :
    exec i s = .next { s with
      hi := 0, lo := word (roundedQuotient up (x.toNat * y.toNat) d.toNat), ok := true, err := 0 } := by
  rw [hexec, mulDivRule_of_ne_zero z o up x y hd, fittingResult_fits o _ fits, commit_wordResult]

/-- R132–R135: the rounded quotient does not fit. -/
theorem exec_mulDivRule_overflows (hd : d ≠ 0)
    (overflows : 2 ^ 256 ≤ roundedQuotient up (x.toNat * y.toNat) d.toNat) : exec i s = .next (commit o s) := by
  rw [hexec, mulDivRule_of_ne_zero z o up x y hd, fittingResult_overflows o _ overflows]

/-- R137: if both failures leave OK 0, success means that LO holds the rounded quotient. -/
theorem lo_of_exec_mulDivRule_ok {t : State} (hz : (commit z s).ok = false) (ho : (commit o s).ok = false)
    (ht : exec i s = .next t) (hok : t.ok = true) :
    d ≠ 0 ∧ t.lo.toNat = roundedQuotient up (x.toNat * y.toNat) d.toNat := by
  have answers {u : State} (hu : exec i s = .next u) : t = u := Host.Outcome.next.inj (ht.symm.trans hu)
  by_cases hd : d = 0
  · rw [answers (exec_mulDivRule_zero hexec hd), hz] at hok
    exact absurd hok Bool.false_ne_true
  · refine ⟨hd, ?_⟩
    obtain fits | overflows := Nat.lt_or_ge (roundedQuotient up (x.toNat * y.toNat) d.toNat) (2 ^ 256)
    · rw [answers (exec_mulDivRule_fits hexec hd fits), word_toNat, Nat.mod_eq_of_lt fits]
    · rw [answers (exec_mulDivRule_overflows hexec hd overflows), ho] at hok
      exact absurd hok Bool.false_ne_true

end

/-- R132, R133: rounding down, a quotient that fits satisfies the division identity. -/
theorem exec_mulDivRule_down_fits {i : Instr} {s : State} {z o : OpOutcome} {x y d : Word}
    (hexec : exec i s = .next (commit (mulDivRule z o false x y d) s)) (hd : d ≠ 0)
    (fits : x.toNat * y.toNat / d.toNat < 2 ^ 256) :
    ∃ q : Word, exec i s = .next { s with hi := 0, lo := q, ok := true, err := 0 } ∧
      x.toNat * y.toNat = q.toNat * d.toNat + x.toNat * y.toNat % d.toNat := by
  refine ⟨_, exec_mulDivRule_fits hexec hd fits, ?_⟩
  rw [word_toNat, roundedQuotient_down, Nat.mod_eq_of_lt fits, Nat.div_add_mod']

/-- R77, R79: a commit neither reads nor writes B and C. -/
theorem commit_with_b_c (o : OpOutcome) (s : State) (b c : OperandReg) :
    commit o { s with b := b, c := c } = { commit o s with b := b, c := c } := by
  cases o with
  | success r write => rfl
  | tryFail => rfl
  | raise e => rfl
  | modelFault f => rfl

/-! ### The statements -/

/-- Settles O24: CEILDIV commits the ceiling rule with the failure DIVISION_BY_ZERO. -/
theorem ceilDivGivesCeilingOrFails : Obligations.CeilDivGivesCeilingOrFails := by
  refine ⟨decode_encode .ceilDiv, fun s a b ha hb => ?_⟩
  have hexec := exec_ceilDiv ha hb
  exact ⟨exec_ceilDivRule_zero hexec,
    fun hne => ⟨_, exec_ceilDivRule_of_ne_zero hexec hne, word_ceilDiv_bracket a hne rfl⟩⟩

/-- Settles O25: TRYCEILDIV commits the ceiling rule with the try failure. -/
theorem tryCeilDivGivesCeilingOrTryFails : Obligations.TryCeilDivGivesCeilingOrTryFails := by
  refine ⟨decode_encode .tryCeilDiv, fun s a b ha hb => ?_⟩
  have hexec := exec_tryCeilDiv ha hb
  exact ⟨exec_ceilDivRule_zero hexec,
    fun hne => ⟨_, exec_ceilDivRule_of_ne_zero hexec hne, word_ceilDiv_bracket a hne rfl⟩⟩

/-- Settles O26: MULDIV commits the multiply-divide rule that rounds down, with two strict failures. -/
theorem mulDivGivesQuotientOrFails : Obligations.MulDivGivesQuotientOrFails := by
  refine ⟨decode_encode .mulDiv, fun s x y d hx hy hd => ?_⟩
  have hexec := exec_mulDiv hx hy hd
  exact ⟨exec_mulDivRule_zero hexec, exec_mulDivRule_overflows hexec, exec_mulDivRule_down_fits hexec⟩

/-- Settles O27: TRYMULDIV commits the multiply-divide rule that rounds down, with the try failure in both places. -/
theorem tryMulDivGivesQuotientOrTryFails : Obligations.TryMulDivGivesQuotientOrTryFails := by
  refine ⟨decode_encode .tryMulDiv, fun s x y d hx hy hd => ?_⟩
  have hexec := exec_tryMulDiv hx hy hd
  refine ⟨fun hfail => ?_, exec_mulDivRule_down_fits hexec⟩
  by_cases hzero : d = 0
  · exact exec_mulDivRule_zero hexec hzero
  · exact exec_mulDivRule_overflows hexec hzero (hfail.resolve_left hzero)

/-- Settles O28: MULDIVR commits the multiply-divide rule of its Rounding, with two strict failures. -/
theorem mulDivRRoundsThenChecks : Obligations.MulDivRRoundsThenChecks := by
  refine ⟨decode_encode (.mulDivR (.mode .floor)), decode_encode (.mulDivR (.mode .ceil)),
    decode_encode (.mulDivR (.mode .trunc)), decode_encode (.mulDivR (.mode .expand)),
    fun s k => exec_eq_commit (.mulDivR (.reserved k)) s, fun s r x y d hx hy hd => ?_⟩
  have hexec := exec_mulDivR hx hy hd r
  exact ⟨exec_mulDivRule_zero hexec, fun hne => ⟨_, roundedQuotient_bracket r _ (BitVec.toNat_pos_of_ne_zero hne),
    exec_mulDivRule_fits hexec hne, exec_mulDivRule_overflows hexec hne⟩⟩

/-- Settles O29: TRYMULDIVR commits the multiply-divide rule of its Rounding, with the try failure in both places. -/
theorem tryMulDivRRoundsThenChecks : Obligations.TryMulDivRRoundsThenChecks := by
  refine ⟨decode_encode (.tryMulDivR (.mode .floor)), decode_encode (.tryMulDivR (.mode .ceil)),
    decode_encode (.tryMulDivR (.mode .trunc)), decode_encode (.tryMulDivR (.mode .expand)),
    fun s k => exec_eq_commit (.tryMulDivR (.reserved k)) s, fun s r x y d hx hy hd => ?_⟩
  have hexec := exec_tryMulDivR hx hy hd r
  exact ⟨exec_mulDivRule_zero hexec, fun hne => ⟨_, roundedQuotient_bracket r _ (BitVec.toNat_pos_of_ne_zero hne),
    exec_mulDivRule_fits hexec hne, exec_mulDivRule_overflows hexec hne⟩⟩

/-- Settles O30: n / d ≥ 2^256 says d · 2^256 ≤ n, and so does d ≤ n / 2^256, which is the HI of MUL512. -/
theorem mulDivOverflowsExactlyWhenHighReachesDivisor : Obligations.MulDivOverflowsExactlyWhenHighReachesDivisor := by
  intro s x y d hx hy hd hne
  have hproduct := toNat_mul_toNat_lt x y
  obtain ⟨hi, lo, hmul, -, hhi⟩ := exec_wideResult (exec_mul512 hx hy) (by omega)
  have hdiv := exec_mulDiv hx hy hd
  have reaches : 2 ^ 256 ≤ x.toNat * y.toNat / d.toNat ↔ d.toNat ≤ hi.toNat := by
    rw [hhi, Nat.le_div_iff_mul_le (BitVec.toNat_pos_of_ne_zero hne), Nat.le_div_iff_mul_le (by omega), Nat.mul_comm]
  obtain fits | overflows := Nat.lt_or_ge (x.toNat * y.toNat / d.toNat) (2 ^ 256)
  · have below : hi.toNat < d.toNat := by omega
    refine ⟨_, _, hmul, exec_mulDivRule_fits hdiv hne fits, reaches, ?_, ?_⟩
    · exact iff_of_false (show (0 : BitVec 3) ≠ 2 by decide) (Nat.not_le.mpr below)
    · exact iff_of_true rfl below
  · have above : d.toNat ≤ hi.toNat := reaches.mp overflows
    refine ⟨_, _, hmul, exec_mulDivRule_overflows hdiv hne overflows, reaches, ?_, ?_⟩
    · exact iff_of_true rfl above
    · exact iff_of_false Bool.false_ne_true (Nat.not_lt.mpr above)

/-- Settles O31: on success LO holds the floor, or the ceiling, of the quotient. -/
theorem divisionIdentityHoldsOnEverySuccess : Obligations.DivisionIdentityHoldsOnEverySuccess := by
  intro s x y d hx hy hd
  refine ⟨fun i t hi ht hok => ?_, fun i t hi ht hok => ?_⟩ <;>
    simp only [List.mem_cons, List.not_mem_nil, or_false] at hi
  · obtain ⟨-, hlo⟩ : d ≠ 0 ∧ t.lo.toNat = roundedQuotient false (x.toNat * y.toNat) d.toNat := by
      obtain rfl | rfl | rfl | rfl | rfl | rfl := hi
      · exact lo_of_exec_mulDivRule_ok (exec_mulDiv hx hy hd) rfl rfl ht hok
      · exact lo_of_exec_mulDivRule_ok (exec_tryMulDiv hx hy hd) rfl rfl ht hok
      · exact lo_of_exec_mulDivRule_ok (exec_mulDivR hx hy hd .floor) rfl rfl ht hok
      · exact lo_of_exec_mulDivRule_ok (exec_mulDivR hx hy hd .trunc) rfl rfl ht hok
      · exact lo_of_exec_mulDivRule_ok (exec_tryMulDivR hx hy hd .floor) rfl rfl ht hok
      · exact lo_of_exec_mulDivRule_ok (exec_tryMulDivR hx hy hd .trunc) rfl rfl ht hok
    rw [hlo, roundedQuotient_down, Nat.div_add_mod']
  · obtain ⟨hne, hlo⟩ : d ≠ 0 ∧ t.lo.toNat = roundedQuotient true (x.toNat * y.toNat) d.toNat := by
      obtain rfl | rfl | rfl | rfl := hi
      · exact lo_of_exec_mulDivRule_ok (exec_mulDivR hx hy hd .ceil) rfl rfl ht hok
      · exact lo_of_exec_mulDivRule_ok (exec_mulDivR hx hy hd .expand) rfl rfl ht hok
      · exact lo_of_exec_mulDivRule_ok (exec_tryMulDivR hx hy hd .ceil) rfl rfl ht hok
      · exact lo_of_exec_mulDivRule_ok (exec_tryMulDivR hx hy hd .expand) rfl rfl ht hok
    have hpos := BitVec.toNat_pos_of_ne_zero hne
    obtain ⟨above, below⟩ := ceilDiv_bracket (x.toNat * y.toNat) hpos
    rw [hlo, roundedQuotient_up]
    exact ⟨above, fun hproduct => below fun hzero => hproduct.ne' ((ceilDiv_eq_zero_iff _ hpos).mp hzero)⟩

/-- Settles O32: by one, both commands commit the same outcome, and the commit leaves B and C as they were. -/
theorem ceilDivIsMulDivRCeilByOne : Obligations.CeilDivIsMulDivRCeilByOne := by
  intro s u a b ha hb hu
  have hmul : exec (.mulDivR (.mode .ceil)) u =
      .next (commit (mulDivRule (.raise .divisionByZero) (.raise .overflow) true a 1 b) u) :=
    exec_mulDivR (by rw [hu]; exact ha) (by rw [hu]; rfl) (by rw [hu]; rfl) .ceil
  refine ⟨_, exec_ceilDiv ha hb, ?_, fun hne => ?_⟩
  · rw [hmul, mulDivRule_up_by_one, hu, commit_with_b_c]
  · rw [ceilDivRule_of_ne_zero _ a hne, commit_wordResult]
    exact ⟨rfl, word_ceilDiv_bracket a hne rfl⟩

end Sys2Proof.Machine
end

section
/-! RootsAndLogs (42_roots_logs.md R170–R178): the root and the three logarithms are one thing, the rounded inverse of a
strictly rising function (the square; a power as a function of its exponent). What a Rounding asks of such an inverse
and the bounds of R178 are proved of the function once, and each command is an instance. -/

namespace Sys2Proof.Machine

/-! ### The rounded inverse of a strictly rising function -/

/-- R173, R175: from the floor inverse `e` of `f` at `n`, plus one when rounding up and `e` is not exact. -/
def roundedInverse (up : Bool) (f : Nat → Nat) (n e : Nat) : Nat := if up = true ∧ f e < n then e + 1 else e

theorem roundedInverse_down (f : Nat → Nat) (n e : Nat) : roundedInverse false f n e = e :=
  if_neg fun h => Bool.false_ne_true h.1

section
variable {f : Nat → Nat} (hf : StrictMono f) {n e k : Nat} (lower : f e ≤ n)
include hf lower

theorem roundedInverse_le (up : Bool) (hk : n ≤ f k) : roundedInverse up f n e ≤ k := by
  rw [roundedInverse]
  split_ifs with hup
  · exact hf.lt_iff_lt.mp (hup.2.trans_le hk)
  · exact hf.le_iff_le.mp (lower.trans hk)

variable (upper : n < f (e + 1))
include upper

/-- R173, R175: the ceiling bracket. An exact inverse brackets `n` too, since `f` rises strictly. -/
theorem roundedInverse_up_bracket :
    n ≤ f (roundedInverse true f n e) ∧
      (roundedInverse true f n e = 0 ∨ f (roundedInverse true f n e - 1) < n) := by
  obtain exact_inverse | inexact := lower.eq_or_lt
  · have hv : roundedInverse true f n e = e := if_neg fun h => h.2.ne exact_inverse
    rw [hv, ← exact_inverse]
    refine ⟨le_rfl, e.eq_zero_or_pos.imp_right fun hpos => hf (Nat.sub_one_lt_of_lt hpos)⟩
  · have hv : roundedInverse true f n e = e + 1 := if_pos ⟨rfl, inexact⟩
    rw [hv]
    exact ⟨upper.le, .inr inexact⟩

/-- R178: the least argument that reaches `n` is the inverse rounded up. -/
theorem roundedInverse_up_eq (below : f k < n) (above : n ≤ f (k + 1)) : roundedInverse true f n e = k + 1 := by
  have reaches := (roundedInverse_up_bracket hf lower upper).1
  exact le_antisymm (roundedInverse_le hf lower true above) (hf.lt_iff_lt.mp (below.trans_le reaches))

/-- R173, R175: Floor and Trunc bracket `n` from below, Ceil and Expand from above; here the inverse is the Word `w`
that a commit writes, which holds it because some argument `k` in the range of a Word reaches `n`. -/
theorem word_roundedInverse_bracket (r : Rounding) (hk : n ≤ f k) (hk256 : k < 2 ^ 256) {w : Word}
    (hw : w = word (roundedInverse (roundsUp r) f n e)) :
    if r = .floor ∨ r = .trunc then f w.toNat ≤ n ∧ n < f (w.toNat + 1)
    else n ≤ f w.toNat ∧ (w = 0 ∨ f (w.toNat - 1) < n) := by
  have fits := (roundedInverse_le hf lower (roundsUp r) hk).trans_lt hk256
  have hval : w.toNat = roundedInverse (roundsUp r) f n e := by rw [hw, word_toNat, Nat.mod_eq_of_lt fits]
  have zero_iff : w = 0 ↔ w.toNat = 0 := BitVec.toNat_inj.symm
  rw [zero_iff, hval]
  have down : f (roundedInverse false f n e) ≤ n ∧ n < f (roundedInverse false f n e + 1) := by
    rw [roundedInverse_down]
    exact ⟨lower, upper⟩
  have up := roundedInverse_up_bracket hf lower upper
  cases r with
  | floor => exact down
  | ceil => exact up
  | trunc => exact down
  | expand => exact up

end

/-! ### The square and the powers -/

theorem square_strictMono : StrictMono fun r : Nat => r ^ 2 := Nat.pow_left_strictMono (by omega)

theorem pow_strictMono {base : Nat} (hbase : 2 ≤ base) : StrictMono fun e => base ^ e :=
  pow_right_strictMono₀ hbase

/-- R172: a Word is at most the square of 2^128. -/
theorem toNat_le_square (n : Word) : n.toNat ≤ (2 ^ 128) ^ 2 := by
  have hn := n.isLt
  omega

/-- R178: a Word is at most the 256th power of any base. -/
theorem toNat_le_pow {base : Nat} (hbase : 2 ≤ base) (n : Word) : n.toNat ≤ base ^ 256 :=
  n.isLt.le.trans (Nat.pow_le_pow_left hbase 256)

/-! ### The two rules -/

theorem sqrtRule_eq (r : Rounding) (n : Word) :
    sqrtRule r n = wordResult (roundedInverse (roundsUp r) (fun x => x ^ 2) n.toNat (isqrt n.toNat)) := by
  simp only [sqrtRule, roundedInverse, Nat.pow_two]

theorem logRule_zero (base : Nat) (r : Rounding) : logRule base r 0 = wordResult 0 := rfl

theorem logRule_of_ne_zero (base : Nat) (r : Rounding) {n : Word} (hn : n ≠ 0) :
    logRule base r n =
      wordResult (roundedInverse (roundsUp r) (fun e => base ^ e) n.toNat (flog base n.toNat)) := by
  rw [logRule, if_neg (BitVec.toNat_pos_of_ne_zero hn).ne']
  rfl

/-! ### The five commands -/

section
variable {s : State} {n : Word} (hn : s.Holds .A n) (r : Rounding)
include hn

/-- R173. -/
theorem exec_sqrt : exec (.sqrt (.mode r)) s = .next (commit (sqrtRule r n) s) := by
  rw [exec_eq_commit, outcomeOf, withRounding_mode, withA_holds s n _ hn]

/-- R175. -/
theorem exec_log2 : exec (.log2 (.mode r)) s = .next (commit (logRule 2 r n) s) := by
  rw [exec_eq_commit, outcomeOf, withRounding_mode, withA_holds s n _ hn]

/-- R176. -/
theorem exec_log10 : exec (.log10 (.mode r)) s = .next (commit (logRule 10 r n) s) := by
  rw [exec_eq_commit, outcomeOf, withRounding_mode, withA_holds s n _ hn]

/-- R177. -/
theorem exec_log256 : exec (.log256 (.mode r)) s = .next (commit (logRule 256 r n) s) := by
  rw [exec_eq_commit, outcomeOf, withRounding_mode, withA_holds s n _ hn]

end

/-- R171: the predicate as a Word, in every state. -/
theorem exec_roundsUp (r : Rounding) (s : State) : exec (.roundsUp (.mode r)) s =
    .next { s with hi := 0, lo := word (if roundsUp r then 1 else 0), ok := true, err := 0 } := by
  rw [exec_eq_commit, outcomeOf, withRounding_mode, commit_wordResult]

/-- R72, R83: each of the four words of a rounding command decodes to it. -/
theorem decode_encode_mode {f : RndField → Instr} (hf : f ∈ roundingCommands) (r : Rounding) :
    decode (encode (f (.mode r))) = .op (f (.mode r)) := by
  have hwf : (f (.mode r)).wellFormed = true := by
    simp only [roundingCommands, List.mem_cons, List.not_mem_nil, or_false] at hf
    obtain rfl | rfl | rfl | rfl | rfl | rfl | rfl := hf <;> rfl
  rw [decode_encode, if_pos hwf]

/-- R74, R261: a rounding command with a reserved RND code commits DOMAIN in every state. -/
theorem exec_reserved {f : RndField → Instr} (hf : f ∈ roundingCommands) (s : State) (k : Fin 4) :
    exec (f (.reserved k)) s = .next { s with ok := false, err := 3, sticky := true } := by
  have houtcome : outcomeOf (f (.reserved k)) s = .raise .domain := by
    simp only [roundingCommands, List.mem_cons, List.not_mem_nil, or_false] at hf
    obtain rfl | rfl | rfl | rfl | rfl | rfl | rfl := hf <;> rfl
  rw [exec_eq_commit, houtcome, commit_raise]
  rfl

/-- R72, R74: what every rounding command's statement says of its words and of its reserved codes, before its own
claim `P`. -/
theorem roundingCommand_words_and (f : RndField → Instr) (hf : f ∈ roundingCommands) {P : Prop} (h : P) :
    decode (encode (f (.mode .floor))) = .op (f (.mode .floor)) ∧
    decode (encode (f (.mode .ceil))) = .op (f (.mode .ceil)) ∧
    decode (encode (f (.mode .trunc))) = .op (f (.mode .trunc)) ∧
    decode (encode (f (.mode .expand))) = .op (f (.mode .expand)) ∧
    (∀ (s : State) (k : Fin 4),
      exec (f (.reserved k)) s = .next { s with ok := false, err := 3, sticky := true }) ∧ P :=
  ⟨decode_encode_mode hf .floor, decode_encode_mode hf .ceil, decode_encode_mode hf .trunc,
    decode_encode_mode hf .expand, exec_reserved hf, h⟩

/-! ### What a commit of the logarithm rule answers -/

section
variable {i : Instr} {s : State} {base : Nat} {r : Rounding} {n : Word} (hbase : 2 ≤ base)
  (hexec : exec i s = .next (commit (logRule base r n) s))
include hbase hexec

/-- R175–R177: a logarithm command writes the rounded logarithm, and 0 for n = 0. -/
theorem exec_logRule_bracket :
    ∃ e : Word, exec i s = .next { s with hi := 0, lo := e, ok := true, err := 0 } ∧ (n = 0 → e = 0) ∧
      (n ≠ 0 → if r = .floor ∨ r = .trunc then base ^ e.toNat ≤ n.toNat ∧ n.toNat < base ^ (e.toNat + 1)
        else n.toNat ≤ base ^ e.toNat ∧ (e = 0 ∨ base ^ (e.toNat - 1) < n.toNat)) := by
  by_cases hn : n = 0
  · rw [hn, logRule_zero, commit_wordResult] at hexec
    exact ⟨_, hexec, fun _ => rfl, fun hne => absurd hn hne⟩
  · rw [logRule_of_ne_zero base r hn, commit_wordResult] at hexec
    obtain ⟨lower, upper⟩ := flog_spec base n.toNat hbase (BitVec.toNat_pos_of_ne_zero hn) n.isLt
    exact ⟨_, hexec, fun hzero => absurd hzero hn, fun _ =>
      word_roundedInverse_bracket (pow_strictMono hbase) lower upper r (toNat_le_pow hbase n) (by omega) rfl⟩

/-- R178: an exponent whose power is not below any Word bounds the logarithm. -/
theorem lo_le_of_exec_logRule {t : State} {k : Nat} (hk : 2 ^ 256 ≤ base ^ k) (ht : exec i s = .next t) :
    t.lo.toNat ≤ k := by
  obtain rfl := Host.Outcome.next.inj (ht.symm.trans hexec)
  by_cases hn : n = 0
  · rw [hn, logRule_zero, commit_wordResult]
    exact Nat.zero_le k
  · rw [logRule_of_ne_zero base r hn, commit_wordResult, word_toNat]
    have lower := (flog_spec base n.toNat hbase (BitVec.toNat_pos_of_ne_zero hn) n.isLt).1
    exact (Nat.mod_le _ _).trans (roundedInverse_le (pow_strictMono hbase) lower _ (n.isLt.le.trans hk))

/-- R178: rounding up, the least exponent whose power reaches `n` is attained. -/
theorem exec_logRule_up_eq {k : Nat} (hr : r = .ceil ∨ r = .expand) (below : base ^ k < n.toNat)
    (above : n.toNat ≤ base ^ (k + 1)) :
    exec i s = .next { s with hi := 0, lo := word (k + 1), ok := true, err := 0 } := by
  have hn : n ≠ 0 := by
    rintro rfl
    exact absurd below (Nat.not_lt_zero _)
  obtain ⟨lower, upper⟩ := flog_spec base n.toNat hbase (BitVec.toNat_pos_of_ne_zero hn) n.isLt
  rw [hexec, logRule_of_ne_zero base r hn, (roundsUp_iff r).mpr hr,
    roundedInverse_up_eq (pow_strictMono hbase) lower upper below above, commit_wordResult]

end

/-! ### The statements -/

/-- Settles O38: ROUNDSUP commits the predicate of R170 as a Word. -/
theorem roundsUpGivesThePredicate : Obligations.RoundsUpGivesThePredicate := by
  refine roundingCommand_words_and .roundsUp (by simp [roundingCommands]) fun s r => ?_
  rw [exec_roundsUp]
  cases r with
  | floor => rfl
  | ceil => rfl
  | trunc => rfl
  | expand => rfl

/-- Settles O33: SQRT commits the rounded inverse of the square, from the floor root `isqrt`. -/
theorem sqrtGivesRoundedRoot : Obligations.SqrtGivesRoundedRoot := by
  refine roundingCommand_words_and .sqrt (by simp [roundingCommands]) fun s r n hn => ?_
  have hexec := exec_sqrt hn r
  rw [sqrtRule_eq, commit_wordResult] at hexec
  have bracket := isqrt_spec n.toNat n.isLt
  rw [← Nat.pow_two, ← Nat.pow_two] at bracket
  obtain ⟨lower, upper⟩ := bracket
  exact ⟨_, hexec, word_roundedInverse_bracket square_strictMono lower upper r (toNat_le_square n) (by omega) rfl⟩

/-- Settles O34: LOG2 commits the logarithm rule of base 2. -/
theorem log2GivesRoundedLog : Obligations.Log2GivesRoundedLog :=
  roundingCommand_words_and .log2 (by simp [roundingCommands]) fun _ r _ hn =>
    exec_logRule_bracket (by omega) (exec_log2 hn r)

/-- Settles O35: LOG10 commits the logarithm rule of base 10. -/
theorem log10GivesRoundedLog : Obligations.Log10GivesRoundedLog :=
  roundingCommand_words_and .log10 (by simp [roundingCommands]) fun _ r _ hn =>
    exec_logRule_bracket (by omega) (exec_log10 hn r)

/-- Settles O36: LOG256 commits the logarithm rule of base 256. -/
theorem log256GivesRoundedLog : Obligations.Log256GivesRoundedLog :=
  roundingCommand_words_and .log256 (by simp [roundingCommands]) fun _ r _ hn =>
    exec_logRule_bracket (by omega) (exec_log256 hn r)

/-- Settles O37: 2^256 − 1 lies above 2^255, 10^77 and 256^31, and no Word lies above 2^256, 10^78 and 256^32. -/
theorem logResultsReachTheirBounds : Obligations.LogResultsReachTheirBounds := by
  intro s t r n hn
  have hlog2 := exec_log2 hn r
  have hlog10 := exec_log10 hn r
  have hlog256 := exec_log256 hn r
  refine ⟨lo_le_of_exec_logRule (by omega) hlog2 (by norm_num), lo_le_of_exec_logRule (by omega) hlog10 (by norm_num),
    lo_le_of_exec_logRule (by omega) hlog256 (by norm_num), fun hmax hr => ⟨?_, ?_, ?_⟩⟩
  · exact exec_logRule_up_eq (k := 255) (by omega) hlog2 hr (by omega) (by omega)
  · exact exec_logRule_up_eq (k := 77) (by omega) hlog10 hr (by omega) (by omega)
  · exact exec_logRule_up_eq (k := 31) (by omega) hlog256 hr (by omega) (by omega)

end Sys2Proof.Machine
end

section
/-! BitOps (43_bitops.md R210, R211): CLZ commits `leadingZeros`, whose bracket between two neighbouring powers of two
determines both the highest set bit and the floor base-2 logarithm. -/

namespace Sys2Proof.Machine

/-! ### The leading zeros of a natural number -/

theorem leadingZeros_le (n : Nat) : leadingZeros n ≤ 256 := by
  unfold leadingZeros
  split_ifs
  · exact le_rfl
  · exact (Nat.sub_le _ _).trans (by omega)

theorem toNat_word_leadingZeros (n : Nat) : (word (leadingZeros n)).toNat = leadingZeros n := by
  have hle := leadingZeros_le n
  rw [word_toNat, Nat.mod_eq_of_lt (by omega)]

/-! ### The leading zeros of a nonzero Word -/

section
variable {x : Word} (hx : x ≠ 0)
include hx

/-- R211: `leadingZeros_spec` of a Word, its two exponents written as neighbours. -/
theorem leadingZeros_bracket :
    leadingZeros x.toNat ≤ 255 ∧ 2 ^ (255 - leadingZeros x.toNat) ≤ x.toNat ∧
      x.toNat < 2 ^ (255 - leadingZeros x.toNat + 1) := by
  obtain ⟨hle, lower, upper⟩ := leadingZeros_spec x.toNat (BitVec.toNat_pos_of_ne_zero hx).ne' x.isLt
  rw [show 256 - leadingZeros x.toNat = 255 - leadingZeros x.toNat + 1 by omega] at upper
  exact ⟨hle, lower, upper⟩

/-- R210: the bit below the leading zeros is set, and the leading zeros are 0. -/
theorem getLsbD_leadingZeros :
    x.getLsbD (255 - leadingZeros x.toNat) = true ∧ ∀ j, 255 - leadingZeros x.toNat < j → x.getLsbD j = false := by
  have hne : x.toNat ≠ 0 := (BitVec.toNat_pos_of_ne_zero hx).ne'
  obtain ⟨-, lower, upper⟩ := leadingZeros_bracket hx
  have log2_eq : x.toNat.log2 = 255 - leadingZeros x.toNat := (Nat.log2_eq_iff hne).mpr ⟨lower, upper⟩
  rw [← log2_eq]
  refine ⟨Nat.testBit_log2 hne, fun j hj => Nat.testBit_eq_false_of_lt ?_⟩
  exact (Nat.log2_lt hne).mp hj

/-- R211: the bracket of the leading zeros is that of the floor base-2 logarithm. -/
theorem flog_two_eq_sub_leadingZeros : flog 2 x.toNat = 255 - leadingZeros x.toNat := by
  obtain ⟨-, lower, upper⟩ := leadingZeros_bracket hx
  exact flog_unique 2 x.toNat _ le_rfl x.isLt lower upper

/-- R211: LOG2.FLOOR of a nonzero Word writes 255 less its leading zeros. -/
theorem lo_commit_log2_floor (s : State) :
    (commit (logRule 2 .floor x) s).lo.toNat = 255 - leadingZeros x.toNat := by
  rw [logRule_of_ne_zero 2 .floor hx, show roundsUp .floor = false from rfl, roundedInverse_down,
    flog_two_eq_sub_leadingZeros hx, commit_wordResult, word_toNat, Nat.mod_eq_of_lt (by omega)]

end

/-! ### The command -/

/-- R210. -/
theorem exec_clz {s : State} {x : Word} (hx : s.Holds .A x) :
    exec .clz s = .next { s with hi := 0, lo := word (leadingZeros x.toNat), ok := true, err := 0 } := by
  rw [exec_eq_commit, outcomeOf, withA_holds s x _ hx, commit_wordResult]

/-! ### The statements -/

/-- Settles O40: CLZ commits `leadingZeros`, below which the highest set bit stands. -/
theorem clzCountsLeadingZeros : Obligations.ClzCountsLeadingZeros := by
  refine ⟨decode_encode .clz, fun s x hx => ⟨leadingZeros x.toNat, exec_clz hx, ?_, fun hne => ?_⟩⟩
  · rintro rfl
    exact leadingZeros_zero
  · exact ⟨(leadingZeros_bracket hne).1, getLsbD_leadingZeros hne⟩

/-- Settles O41: the bracket of the leading zeros gives the highest set bit and the floor logarithm. -/
theorem clzComplementsFloorLog2 : Obligations.ClzComplementsFloorLog2 := by
  intro s x hx
  refine ⟨_, _, exec_clz hx, exec_log2 hx .floor, ?_, fun hne => ?_⟩
  · rintro rfl
    exact congrArg word leadingZeros_zero
  · rw [toNat_word_leadingZeros]
    obtain ⟨highest_set, above_clear⟩ := getLsbD_leadingZeros hne
    obtain ⟨-, lower, upper⟩ := leadingZeros_spec x.toNat (BitVec.toNat_pos_of_ne_zero hne).ne' x.isLt
    exact ⟨highest_set, above_clear, lower, upper, lo_commit_log2_floor hne s⟩

end Sys2Proof.Machine
end

section
/-! ModularArithmetic (44_modular.md R220–R227): the inverse and the power as numbers, the scalar rules on written
operands, and the byte-string rule on ByteStrings that stand written in BUF. A strict form and its try form are one
lemma, used with two outcomes for a modulus of 0. -/

namespace Sys2Proof.Machine

/-! ### The inverse as a number -/

/-- R220: outside the two cases in which INVMOD gives 0, there is an inverse. -/
theorem one_lt_and_gcd_eq_one {v m : Nat} (h : ¬ (m ≤ 1 ∨ Nat.gcd v m ≠ 1)) : 1 < m ∧ Nat.gcd v m = 1 := by
  rwa [not_or, not_le, not_not] at h

/-- R223: a prime has no common divisor with a number that is not its multiple. -/
theorem gcd_prime_eq_one {v p : Nat} (hp : p.Prime) (hv : v % p ≠ 0) : Nat.gcd v p = 1 :=
  (hp.coprime_iff_not_dvd.mpr fun hdvd => hv (Nat.mod_eq_zero_of_dvd hdvd)).symm

/-- R223, by Fermat's little theorem: modulo a prime p, the power p − 2 of v is an inverse of v. -/
theorem mul_pow_sub_two_mod_prime {v p : Nat} (hp : p.Prime) (hv : v % p ≠ 0) : v * (v ^ (p - 2) % p) % p = 1 := by
  have fermat : v ^ (p - 1) ≡ 1 [MOD p] := Nat.totient_prime hp ▸ Nat.ModEq.pow_totient (gcd_prime_eq_one hp hv)
  have htwo := hp.two_le
  calc v * (v ^ (p - 2) % p) % p
      = v ^ (p - 1) % p := by rw [Nat.mul_mod_mod, ← Nat.pow_succ', show (p - 2).succ = p - 1 by omega]
    _ = 1 % p := fermat
    _ = 1 := Nat.mod_eq_of_lt htwo

theorem toNat_sub_two {m : Word} (h : 2 ≤ m.toNat) : (m - 2).toNat = m.toNat - 2 :=
  BitVec.toNat_sub_of_le h

/-! ### The two scalar rules -/

theorem invModRule_no_inverse {v m : Word} (h : m.toNat ≤ 1 ∨ Nat.gcd v.toNat m.toNat ≠ 1) :
    invModRule v m = wordResult 0 := by
  unfold invModRule
  split_ifs with hm hg
  · rfl
  · rfl
  · exact absurd h (not_or.mpr ⟨hm, hg⟩)

theorem invModRule_of_coprime {v m : Word} (hm : 1 < m.toNat) (hg : Nat.gcd v.toNat m.toNat = 1) :
    invModRule v m = wordResult (modInverse v.toNat m.toNat) := by
  rw [invModRule, if_neg (Nat.not_le.mpr hm), if_neg (not_not.mpr hg)]

theorem modExpRule_zero (z : OpOutcome) (b e : Word) : modExpRule z b e 0 = z := rfl

/-- R221: the rule's case m = 1 is no exception, since every power is 0 modulo 1. -/
theorem modExpRule_of_ne_zero (z : OpOutcome) (b e : Word) {m : Word} (hm : m ≠ 0) :
    modExpRule z b e m = wordResult (b.toNat ^ e.toNat % m.toNat) := by
  rw [modExpRule, if_neg (BitVec.toNat_pos_of_ne_zero hm).ne']
  split_ifs with hone
  · rw [hone, Nat.mod_one]
  · rw [powMod_eq]

/-- R227: a remainder modulo a nonzero Word fits in a Word. -/
theorem toNat_word_mod_of_ne_zero (n : Nat) {m : Word} (hm : m ≠ 0) : (word (n % m.toNat)).toNat = n % m.toNat := by
  rw [word_toNat, Nat.mod_eq_of_lt ((Nat.mod_lt _ (BitVec.toNat_pos_of_ne_zero hm)).trans m.isLt)]

/-! ### The three scalar commands on written operands -/

/-- R220. -/
theorem exec_invMod {s : State} {v m : Word} (hv : s.Holds .A v) (hm : s.Holds .B m) :
    exec .invMod s = .next (commit (invModRule v m) s) := by
  rw [exec_eq_commit, outcomeOf, withAB_holds s v m _ hv hm]

section
variable {s : State} {b e m : Word} (hb : s.Holds .A b) (he : s.Holds .B e) (hm : s.Holds .C m)
include hb he hm

/-- R221. -/
theorem exec_modExp : exec .modExp s = .next (commit (modExpRule (.raise .divisionByZero) b e m) s) := by
  rw [exec_eq_commit, outcomeOf, withABC_holds s b e m _ hb he hm]

/-- R222. -/
theorem exec_tryModExp : exec .tryModExp s = .next (commit (modExpRule .tryFail b e m) s) := by
  rw [exec_eq_commit, outcomeOf, withABC_holds s b e m _ hb he hm]

end

section
variable {i : Instr} {s : State} {z : OpOutcome} {b e m : Word}
  (hexec : exec i s = .next (commit (modExpRule z b e m) s))
include hexec

/-- R221, R222, m = 0. -/
theorem exec_modExpRule_zero (hm : m = 0) : exec i s = .next (commit z s) := by
  rw [hexec, hm, modExpRule_zero]

/-- R221, R222, m > 0. -/
theorem exec_modExpRule_of_ne_zero (hm : m ≠ 0) :
    ∃ r : Word, exec i s = .next { s with hi := 0, lo := r, ok := true, err := 0 } ∧
      r.toNat = b.toNat ^ e.toNat % m.toNat := by
  refine ⟨word (b.toNat ^ e.toNat % m.toNat), ?_, toNat_word_mod_of_ne_zero _ hm⟩
  rw [hexec, modExpRule_of_ne_zero z b e hm, commit_wordResult]

end

/-! ### ByteStrings in BUF -/

theorem foldl_bytes_eq_beValue (bs : List Byte) :
    ∀ acc : Nat, bs.foldl (fun acc b => acc * 256 + b.toNat) acc = acc * 256 ^ bs.length + beValue bs := by
  induction bs with
  | nil => intro acc; simp [beValue]
  | cons b bs ih =>
    intro acc
    rw [List.foldl_cons, ih, beValue, List.length_cons, Nat.pow_succ]
    ring

/-- R10, R53: the value read byte by byte is the weighted sum of the bytes. -/
theorem bigEndian_eq_beValue (bs : List Byte) : bigEndian bs = beValue bs := by
  rw [bigEndian, foldl_bytes_eq_beValue, Nat.zero_mul, Nat.zero_add]

/-- R54: a Word is the value of its 32-byte encoding. -/
theorem bigEndian_beBytes_word (w : Word) : bigEndian (beBytes w.toNat 32) = w.toNat := by
  rw [bigEndian_eq_beValue, beValue_beBytes]
  exact Nat.mod_eq_of_lt (by simpa using w.isLt)

/-- R54: an address inside the written range reads its byte. -/
theorem Memory.read_writeBytes_inside {bs : List Byte} {i : Nat} (hi : i < bs.length) (m : Memory) (addr : Nat) :
    (m.writeBytes addr bs).read (addr + i) = bs[i]? := by
  rw [Memory.read_writeBytes, if_pos (Nat.le_add_right addr i), Nat.add_sub_cancel_left,
    List.getElem?_eq_getElem hi, Option.some_or]

/-! ### Valid descriptors -/

theorem toNat_descriptor {offset length : Nat} (h : offset + length < 2 ^ 32) :
    (descriptor offset length).toNat = offset + 2 ^ 32 * length := by
  rw [descriptor, word_toNat]
  omega

/-- R78: the descriptor of a range inside BUF names that range. -/
theorem withInput_descriptor {n offset length : Nat} (hn : n < 2 ^ 32) (h : offset + length ≤ n)
    (k : Nat → Nat → OpOutcome) : withInput n (descriptor offset length) k = k offset length := by
  have hoffset : (offset + 2 ^ 32 * length) % 2 ^ 32 = offset := by omega
  have hlength : (offset + 2 ^ 32 * length) / 2 ^ 32 % 2 ^ 32 = length := by omega
  rw [withInput, inputDescriptor_eq, toNat_descriptor (by omega), hoffset, hlength, if_neg (by omega)]

/-- R78: an offset whose result range lies inside BUF is its own output descriptor. -/
theorem withOutput_word {n length offset : Nat} (hn : n < 2 ^ 32) (h : offset + length ≤ n) (k : Nat → OpOutcome) :
    withOutput n length (word offset) k = k offset := by
  have hword : (word offset).toNat = offset := by rw [word_toNat]; omega
  have hoffset : offset % 2 ^ 32 = offset := by omega
  rw [withOutput, outputDescriptor_eq, hword, hoffset, if_neg (by omega)]

/-! ### The byte-string rule on valid operands -/

/-- R224: the bytes MODEXPB writes: the power of the operands' values, in the modulus's length. -/
def powerBytes (base exponent modulus : List Byte) : List Byte :=
  beBytes (bigEndian base ^ bigEndian exponent % bigEndian modulus) modulus.length

@[simp] theorem powerBytes_length (base exponent modulus : List Byte) :
    (powerBytes base exponent modulus).length = modulus.length :=
  beBytes_length _ _

section
variable {s : State} {oB oE oM oOut : Nat} {base exponent modulus : List Byte}
  (h : ByteOperands s oB oE oM oOut base exponent modulus)
include h

/-- R224, R225: the four descriptors are valid and the input bytes written, so the rule goes by the modulus alone. -/
theorem withABCD_modExpBRule (z : OpOutcome) :
    withABCD s (modExpBRule z s.bufBytes s.buf) =
      if bigEndian modulus = 0 then z
      else .success { high := 0, low := word modulus.length } (some (oOut, powerBytes base exponent modulus)) := by
  rw [withABCD_holds s _ _ _ _ _ h.descA h.descB h.descC h.descD, modExpBRule,
    withInput_descriptor h.bufBytes32 h.rangeA, withInput_descriptor h.bufBytes32 h.rangeB,
    withInput_descriptor h.bufBytes32 h.rangeC, withOutput_word h.bufBytes32 h.rangeD,
    withMem_holds s oB base _ h.bytesA, withMem_holds s oE exponent _ h.bytesB,
    withMem_holds s oM modulus _ h.bytesC, powMod_eq, powerBytes, bigEndian_eq_beValue, bigEndian_eq_beValue,
    bigEndian_eq_beValue]

variable {i : Instr} {z : OpOutcome}
  (hexec : exec i s = .next (commit (withABCD s (modExpBRule z s.bufBytes s.buf)) s))
include hexec

/-- R224, R225: a modulus of value 0. -/
theorem exec_modExpBRule_zero (hm : bigEndian modulus = 0) : exec i s = .next (commit z s) := by
  rw [hexec, withABCD_modExpBRule h, if_pos hm]

/-- R224, R225: a modulus of another value. -/
theorem exec_modExpBRule_of_ne_zero (hm : bigEndian modulus ≠ 0) :
    exec i s = .next { s with
      hi := 0, lo := word modulus.length, ok := true, err := 0,
      buf := s.buf.writeBytes oOut (powerBytes base exponent modulus) } := by
  rw [hexec, withABCD_modExpBRule h, if_neg hm]
  rfl

/-- R54, R224, R225: the result stands digit by digit in the output range, and the rest of BUF reads as before. -/
theorem exec_modExpBRule_writes (hm : bigEndian modulus ≠ 0) :
    ∃ m : Memory,
      exec i s = .next { s with hi := 0, lo := word modulus.length, ok := true, err := 0, buf := m } ∧
      (∀ j, j < modulus.length → m.read (oOut + j) = some (BitVec.ofNat 8
        (bigEndian base ^ bigEndian exponent % bigEndian modulus / 256 ^ (modulus.length - 1 - j)))) ∧
      (∀ addr, addr < oOut ∨ oOut + modulus.length ≤ addr → m.read addr = s.buf.read addr) := by
  have hlength := powerBytes_length base exponent modulus
  refine ⟨_, exec_modExpBRule_of_ne_zero h hexec hm, fun j hj => ?_, fun addr haddr => ?_⟩
  · rw [Memory.read_writeBytes_inside (hlength.symm ▸ hj)]
    exact beBytes_getElem? _ _ _ hj
  · exact Memory.read_writeBytes_outside _ _ _ _ (hlength.symm ▸ haddr)

end

/-! ### The statements -/

/-- Settles O42: INVMOD commits 0 where there is no inverse, and the inverse Euclid's algorithm finds otherwise. -/
theorem invModGivesTheInverseOrZero : Obligations.InvModGivesTheInverseOrZero := by
  refine ⟨decode_encode .invMod, fun s v m hv hm => ?_⟩
  by_cases hinv : m.toNat ≤ 1 ∨ Nat.gcd v.toNat m.toNat ≠ 1
  · refine ⟨0, ?_, fun _ => rfl, fun hone hg => absurd hinv (not_or.mpr ⟨by omega, not_not.mpr hg⟩)⟩
    rw [exec_invMod hv hm, invModRule_no_inverse hinv]
    rfl
  · obtain ⟨hone, hg⟩ := one_lt_and_gcd_eq_one hinv
    obtain ⟨hlt, hmul⟩ := modInverse_spec v.toNat m.toNat hone m.isLt hg
    have hword : (word (modInverse v.toNat m.toNat)).toNat = modInverse v.toNat m.toNat := by
      rw [word_toNat, Nat.mod_eq_of_lt (hlt.trans m.isLt)]
    refine ⟨word (modInverse v.toNat m.toNat), ?_, fun hno => absurd hno hinv, fun _ _ => ?_⟩
    · rw [exec_invMod hv hm, invModRule_of_coprime hone hg, commit_wordResult]
    · rw [hword]
      exact ⟨hlt, hmul⟩

/-- Settles O43: MODEXP commits the power rule with the failure DIVISION_BY_ZERO. -/
theorem modExpGivesThePowerOrFails : Obligations.ModExpGivesThePowerOrFails :=
  ⟨decode_encode .modExp, fun _ _ _ _ hb he hm =>
    ⟨exec_modExpRule_zero (exec_modExp hb he hm), exec_modExpRule_of_ne_zero (exec_modExp hb he hm)⟩⟩

/-- Settles O44: TRYMODEXP commits the power rule with the try failure. -/
theorem tryModExpGivesThePowerOrTryFails : Obligations.TryModExpGivesThePowerOrTryFails :=
  ⟨decode_encode .tryModExp, fun _ _ _ _ hb he hm =>
    ⟨exec_modExpRule_zero (exec_tryModExp hb he hm), exec_modExpRule_of_ne_zero (exec_tryModExp hb he hm)⟩⟩

/-- Settles O45: a nonzero LO rules the cases without an inverse out, and modulo a prime the Fermat power is an inverse
too, of which there is only one. -/
theorem invModIsAnInverseAndAFermatPower : Obligations.InvModIsAnInverseAndAFermatPower := by
  refine ⟨fun s t v m hv hm ht hlo => ?_, fun s u v m hv hm hprime hne hv' he' hm' => ?_⟩
  · obtain ⟨x, hexec, no_inverse, inverse⟩ := invModGivesTheInverseOrZero.2 s v m hv hm
    obtain rfl := Host.Outcome.next.inj (ht.symm.trans hexec)
    obtain ⟨hone, hg⟩ := one_lt_and_gcd_eq_one (mt no_inverse hlo)
    exact (inverse hone hg).symm
  · obtain ⟨x, hinv, -, inverse⟩ := invModGivesTheInverseOrZero.2 s v m hv hm
    obtain ⟨hx, hvx⟩ := inverse hprime.one_lt (gcd_prime_eq_one hprime hne)
    obtain ⟨r, hpow, hr⟩ := (modExpGivesThePowerOrFails.2 u v (m - 2) m hv' he' hm').2
      fun hzero => hprime.ne_zero (congrArg BitVec.toNat hzero)
    rw [toNat_sub_two hprime.two_le] at hr
    have hvr : v.toNat * r.toNat % m.toNat = 1 := hr ▸ mul_pow_sub_two_mod_prime hprime hne
    obtain rfl : x = r := BitVec.eq_of_toNat_eq <|
      inverse_unique v.toNat m.toNat x.toNat r.toNat hx (hr ▸ Nat.mod_lt _ hprime.pos) hvx hvr
    exact ⟨x, hinv, hpow⟩

/-- Settles O46: MODEXPB commits the byte-string rule with the failure DIVISION_BY_ZERO. -/
theorem modExpBWritesThePowerOrFails : Obligations.ModExpBWritesThePowerOrFails := by
  refine ⟨decode_encode .modExpB, fun s a b c d ha hb hc hd hbad => ?_, fun s _ _ _ _ _ _ _ h => ?_⟩
  · exact badDescriptorFailsBothForms s s.buf a b c d ha hb hc hd hbad .modExpB (by simp)
  · have hexec := exec_eq_commit .modExpB s
    exact ⟨exec_modExpBRule_zero h hexec, exec_modExpBRule_writes h hexec⟩

/-- Settles O47: TRYMODEXPB commits the byte-string rule with the try failure. -/
theorem tryModExpBWritesThePowerOrTryFails : Obligations.TryModExpBWritesThePowerOrTryFails := by
  refine ⟨decode_encode .tryModExpB, fun s a b c d ha hb hc hd hbad => ?_, fun s _ _ _ _ _ _ _ h => ?_⟩
  · exact badDescriptorFailsBothForms s s.buf a b c d ha hb hc hd hbad .tryModExpB (by simp)
  · have hexec := exec_eq_commit .tryModExpB s
    exact ⟨exec_modExpBRule_zero h hexec, exec_modExpBRule_writes h hexec⟩

/-- Settles O48: the encodings have the values of their Words, so both commands compute one power. -/
theorem byteStringModExpAgreesWithScalar : Obligations.ByteStringModExpAgreesWithScalar := by
  intro s u oB oE oM oOut b e m h hm hb he hmod
  obtain ⟨r, hscalar, hr⟩ := (modExpGivesThePowerOrFails.2 u b e m hb he hmod).2 hm
  have hpos := BitVec.toNat_pos_of_ne_zero hm
  have hne : bigEndian (beBytes m.toNat 32) ≠ 0 := by
    rw [bigEndian_beBytes_word]
    exact hpos.ne'
  have hbytes : powerBytes (beBytes b.toNat 32) (beBytes e.toNat 32) (beBytes m.toNat 32) = beBytes r.toNat 32 := by
    rw [powerBytes, bigEndian_beBytes_word, bigEndian_beBytes_word, bigEndian_beBytes_word, beBytes_length, hr]
  have hstring := exec_modExpBRule_of_ne_zero h (exec_eq_commit .modExpB s) hne
  rw [hbytes, beBytes_length] at hstring
  have below : r.toNat < m.toNat := hr ▸ Nat.mod_lt _ hpos
  refine ⟨_, _, hscalar, hstring, rfl, rfl, rfl, below, fun i hi => ?_⟩
  have inside : i < (beBytes r.toNat 32).length := by rwa [beBytes_length]
  dsimp only
  exact Memory.read_writeBytes_inside inside s.buf oOut

end Sys2Proof.Machine
end

section
/-! What every step completes (60_exceptions.md R263, R268–R270, R277): an idle step holds the whole state, and every host
transaction answers a next state that leaves the host's program, its index and BUF_BYTES to the step that took it. -/

namespace Sys2Proof.Machine

/-! ### The idle step -/

theorem step_idle {s : State} (h : s.pending = []) : step s = .next s := by
  simp only [step, hostStep, h]

/-- Settles O8: an idle step takes no transaction. -/
theorem idleUnitHoldsItsState : Obligations.IdleUnitHoldsItsState := fun _ h => step_idle h

/-! ### What a transaction leaves to the step -/

@[simp] theorem commit_hpc (o : OpOutcome) (s : State) : (commit o s).hpc = s.hpc := by
  cases o <;> rfl

@[simp] theorem commit_pending (o : OpOutcome) (s : State) : (commit o s).pending = s.pending := by
  cases o <;> rfl

/-- R34, R290: no transaction, not even a reset, changes BUF_BYTES, the host's index or the host's program. -/
theorem TxnEffect.host_kept {s t : State} {txn : HostTxn} (he : TxnEffect s txn t) :
    t.bufBytes = s.bufBytes ∧ t.hpc = s.hpc ∧ t.pending = s.pending := by
  cases he with
  | unitKept | byteWritten | busError | unitReset => exact ⟨rfl, rfl, rfl⟩
  | operandWritten => exact ⟨setOperand_bufBytes .., setOperand_hpc .., setOperand_pending ..⟩
  | commandRun => exact ⟨commit_bufBytes .., commit_hpc .., commit_pending ..⟩

/-! ### Every transaction answers a next state -/

theorem exists_hostRegWrite_eq_next (index : Nat) (v : Word) (s : State) :
    ∃ t : State, hostRegWrite index v s = .next t := by
  unfold hostRegWrite
  cases RegName.ofIndex index with
  | none => exact ⟨_, rfl⟩
  | some r =>
    cases r with
    | cmd => exact ⟨_, executeCommand_eq_commit v s⟩
    | operand | hi | lo | status | cfg => exact ⟨_, rfl⟩

theorem exists_transact_eq_next (txn : HostTxn) (s : State) : ∃ t : State, transact txn s = .next t := by
  cases txn with
  | regWrite index v => exact exists_hostRegWrite_eq_next index v s
  | regRead | bufRead | bufWrite | reset => exact ⟨_, rfl⟩

/-- Settles O54: taking the transaction moves the host's side, and performing it answers a next state and keeps that. -/
theorem everyStepCompletes : Obligations.EveryStepCompletes := by
  intro s
  cases hp : s.pending with
  | nil => exact ⟨s, step_idle hp, rfl, rfl, hp⟩
  | cons txn rest =>
    obtain ⟨t, ht⟩ := exists_transact_eq_next txn (accept rest s)
    obtain ⟨hbytes, hhpc, hpending⟩ := (transact_effect ht).host_kept
    exact ⟨t, (step_pending s txn rest hp).trans ht, hbytes, hhpc, hpending⟩

end Sys2Proof.Machine
end

section
/-! The model faults of a command (60_exceptions.md R269): the first unwritten operand register in the order of the reads
(30_encoding.md R77), and the first unwritten byte of the input ranges (44_modular.md R224). Each form ends the command
in the fault its list of reads begins with, or hands the rest of the list on. -/

namespace Sys2Proof.Machine

/-! ### The first unwritten operand register -/

/-- R269: the first of the operand registers `xs` that is unwritten. -/
def State.firstUnwritten (s : State) (xs : List OperandName) : Option OperandName :=
  xs.find? fun y => !(s.operand y).written

/-- R77, R269: the first unwritten register in the terms of the statement, as a split of the reads. -/
theorem State.firstUnwritten_append {s : State} {before after : List OperandName} {x : OperandName}
    (hbefore : ∀ y ∈ before, (s.operand y).written = true) (hx : (s.operand x).written = false) :
    s.firstUnwritten (before ++ x :: after) = some x :=
  List.find?_eq_some_iff_append.mpr ⟨by rw [hx]; rfl, before, after, rfl, fun y hy => by rw [hbefore y hy]; rfl⟩

section
variable {s : State} {x : OperandName}

/-- A read either is the first of an unwritten register, or leaves that to the reads after it. -/
theorem withOperand_firstUnwritten {y : OperandName} {ys : List OperandName} {k : Word → OpOutcome}
    (h : s.firstUnwritten (y :: ys) = some x)
    (hk : ∀ v, s.firstUnwritten ys = some x → k v = .modelFault (.uninitOperand x)) :
    withOperand y s k = .modelFault (.uninitOperand x) := by
  obtain ⟨hy, hread⟩ | ⟨hy, hread⟩ := withOperand_cases y s k
  · rw [State.firstUnwritten, List.find?_cons_of_neg (by simp [hy])] at h
    exact hread.trans (hk _ h)
  · rw [State.firstUnwritten, List.find?_cons_of_pos (by simp [hy])] at h
    cases h
    exact hread

theorem withA_firstUnwritten {rule : Word → OpOutcome} (h : s.firstUnwritten [.A] = some x) :
    withA s rule = .modelFault (.uninitOperand x) :=
  withOperand_firstUnwritten h fun _ => nofun

theorem withAB_firstUnwritten {rule : Word → Word → OpOutcome} (h : s.firstUnwritten [.A, .B] = some x) :
    withAB s rule = .modelFault (.uninitOperand x) :=
  withOperand_firstUnwritten h fun _ h => withOperand_firstUnwritten h fun _ => nofun

theorem withABC_firstUnwritten {rule : Word → Word → Word → OpOutcome} (h : s.firstUnwritten [.A, .B, .C] = some x) :
    withABC s rule = .modelFault (.uninitOperand x) :=
  withOperand_firstUnwritten h fun _ h => withOperand_firstUnwritten h fun _ h =>
    withOperand_firstUnwritten h fun _ => nofun

theorem withABCD_firstUnwritten {rule : Word → Word → Word → Word → OpOutcome}
    (h : s.firstUnwritten [.A, .B, .C, .D] = some x) : withABCD s rule = .modelFault (.uninitOperand x) :=
  withOperand_firstUnwritten h fun _ h => withOperand_firstUnwritten h fun _ h =>
    withOperand_firstUnwritten h fun _ h => withOperand_firstUnwritten h fun _ => nofun

end

/-- R72: a well-formed RND field hands a Rounding on. -/
theorem withRounding_eq_of_wellFormed {rnd : RndField} {k : Rounding → OpOutcome} {o : OpOutcome}
    (hwf : rnd.wellFormed = true) (h : ∀ r, k r = o) : withRounding rnd k = o := by
  cases rnd with
  | mode r => exact h r
  | reserved n => cases hwf

/-- R77, R269: the outcome of a well-formed command that reads an unwritten operand register. -/
theorem outcomeOf_firstUnwritten {i : Instr} {s : State} {x : OperandName} (hwf : i.wellFormed = true)
    (h : s.firstUnwritten (operandsRead i) = some x) : outcomeOf i s = .modelFault (.uninitOperand x) := by
  cases i with
  | add512 | mul512 | tryAdd | tryMul | ceilDiv | tryCeilDiv | invMod => exact withAB_firstUnwritten h
  | mulDiv | tryMulDiv | modExp | tryModExp => exact withABC_firstUnwritten h
  | mulDivR | tryMulDivR => exact withRounding_eq_of_wellFormed hwf fun _ => withABC_firstUnwritten h
  | sqrt | log2 | log10 | log256 => exact withRounding_eq_of_wellFormed hwf fun _ => withA_firstUnwritten h
  | roundsUp => cases h
  | clz => exact withA_firstUnwritten h
  | modExpB | tryModExpB => exact withABCD_firstUnwritten h

/-- Settles O50: the outcome is the fault of the first unwritten register, and its commit appends it to the record. -/
theorem unwrittenOperandIsRecorded : Obligations.UnwrittenOperandIsRecorded := by
  intro i s before after x hwf hreads hbefore hx
  have outcome : outcomeOf i s = .modelFault (.uninitOperand x) :=
    outcomeOf_firstUnwritten hwf (hreads ▸ State.firstUnwritten_append hbefore hx)
  rw [exec_eq_commit, outcome, commit_modelFault]

/-! ### The first unwritten byte -/

/-- R269: the first of the addresses `addrs` whose byte is unwritten. -/
def Memory.firstUnwritten (m : Memory) (addrs : List Nat) : Option Nat :=
  addrs.find? fun addr => (m.read addr).isNone

theorem Memory.readBytes_eq_error_iff {m : Memory} {addr n x : Nat} :
    m.readBytes addr n = .error x ↔ m.firstUnwritten (List.range' addr n) = some x := by
  rw [Memory.readBytes_error, Memory.firstUnwritten, List.find?_range'_eq_some, List.mem_range'_1]
  simp only [Option.isNone_iff_eq_none, Bool.not_eq_true', Option.isNone_eq_false_iff, Option.isSome_iff_ne_none]
  tauto

theorem Memory.firstUnwritten_of_readBytes_ok {m : Memory} {addr n : Nat} {bs : List Byte}
    (h : m.readBytes addr n = .ok bs) : m.firstUnwritten (List.range' addr n) = none := by
  rw [Option.eq_none_iff_forall_ne_some]
  intro x hx
  rw [Memory.readBytes_eq_error_iff.mpr hx] at h
  cases h

/-- A read of a range either meets the first unwritten byte, or leaves that to the ranges after it. -/
theorem withMem_firstUnwritten {m : Memory} {addr n x : Nat} {addrs : List Nat} {k : Nat → OpOutcome}
    (h : m.firstUnwritten (List.range' addr n ++ addrs) = some x)
    (hk : ∀ value, m.firstUnwritten addrs = some x → k value = .modelFault (.uninitBuffer x)) :
    withMem m addr n k = .modelFault (.uninitBuffer x) := by
  have first : (m.firstUnwritten (List.range' addr n)).or (m.firstUnwritten addrs) = some x :=
    List.find?_append.symm.trans h
  cases hread : m.readBytes addr n with
  | error y =>
    rw [Memory.readBytes_eq_error_iff.mp hread] at first
    cases first
    rw [withMem, hread]
  | ok bs =>
    rw [Memory.firstUnwritten_of_readBytes_ok hread, Option.none_or] at first
    rw [withMem, hread]
    exact hk _ first

/-- R224, R269: with valid descriptors the byte-string rule ends at the first unwritten byte of base, exponent and
modulus, in that order. -/
theorem modExpBRule_firstUnwritten {n oB nB oE nE oM nM oOut x : Nat} {m : Memory} (hn : n < 2 ^ 32)
    (hB : oB + nB ≤ n) (hE : oE + nE ≤ n) (hM : oM + nM ≤ n) (hOut : oOut + nM ≤ n)
    (h : m.firstUnwritten (List.range' oB nB ++ (List.range' oE nE ++ List.range' oM nM)) = some x)
    (zeroModulus : OpOutcome) :
    modExpBRule zeroModulus n m (descriptor oB nB) (descriptor oE nE) (descriptor oM nM) (word oOut) =
      .modelFault (.uninitBuffer x) := by
  rw [modExpBRule, withInput_descriptor hn hB, withInput_descriptor hn hE, withInput_descriptor hn hM,
    withOutput_word hn hOut]
  rw [← List.append_nil (List.range' oM nM)] at h
  exact withMem_firstUnwritten h fun _ h => withMem_firstUnwritten h fun _ h => withMem_firstUnwritten h fun _ => nofun

/-- R224, R225: the two byte-string commands are one rule, with two outcomes for a modulus of value 0. -/
theorem outcomeOf_byteString {i : Instr} (hi : i = .modExpB ∨ i = .tryModExpB) (s : State) :
    ∃ zeroModulus : OpOutcome, zeroModulus ∈ [.raise .divisionByZero, .tryFail] ∧
      outcomeOf i s = withABCD s (modExpBRule zeroModulus s.bufBytes s.buf) := by
  obtain rfl | rfl := hi
  · exact ⟨_, .head _, rfl⟩
  · exact ⟨_, .tail _ (.head _), rfl⟩

/-- Settles O51: the outcome is the fault of the first unwritten byte, and its commit appends it to the record. -/
theorem unwrittenBufferByteIsRecorded : Obligations.UnwrittenBufferByteIsRecorded := by
  intro i s oB nB oE nE oM nM oOut k hi hA hB hC hD hn hrB hrE hrM hrOut hk
  simp only [← List.range'_eq_map_range, List.append_assoc] at hk
  obtain ⟨zeroModulus, -, hout⟩ := outcomeOf_byteString hi s
  have outcome : outcomeOf i s = .modelFault (.uninitBuffer k) := by
    rw [hout, withABCD_holds s _ _ _ _ _ hA hB hC hD]
    exact modExpBRule_firstUnwritten hn hrB hrE hrM hrOut hk zeroModulus
  rw [exec_eq_commit, outcome, commit_modelFault]

end Sys2Proof.Machine
end

section
/-! The four outcomes of a command (60_exceptions.md R260, 30_encoding.md R80, R81): what a success may change of BUF
(20_memory.md R51, R67), and the commits of all four. -/

namespace Sys2Proof.Machine

/-! ### A success of a byte-string command writes BUF -/

/-- R67: the outcome is no success that leaves BUF alone. -/
def OpOutcome.WritesOnSuccess (o : OpOutcome) : Prop := ∀ r, o ≠ .success r none

theorem withOperand_writesOnSuccess (x : OperandName) (s : State) {k : Word → OpOutcome}
    (h : ∀ v, (k v).WritesOnSuccess) : (withOperand x s k).WritesOnSuccess := by
  obtain ⟨-, hk⟩ | ⟨-, hk⟩ := withOperand_cases x s k <;> rw [hk]
  · exact h _
  · exact nofun

theorem withInput_writesOnSuccess (n : Nat) (v : Word) {k : Nat → Nat → OpOutcome}
    (h : ∀ offset length, (k offset length).WritesOnSuccess) : (withInput n v k).WritesOnSuccess := by
  obtain hk | ⟨-, hk⟩ := withInput_cases n v k <;> rw [hk]
  · exact nofun
  · exact h _ _

theorem withOutput_writesOnSuccess (n len : Nat) (v : Word) {k : Nat → OpOutcome}
    (h : ∀ offset, (k offset).WritesOnSuccess) : (withOutput n len v k).WritesOnSuccess := by
  obtain hk | ⟨-, hk⟩ := withOutput_cases n len v k <;> rw [hk]
  · exact nofun
  · exact h _

theorem withMem_writesOnSuccess (m : Memory) (addr n : Nat) {k : Nat → OpOutcome}
    (h : ∀ value, (k value).WritesOnSuccess) : (withMem m addr n k).WritesOnSuccess := by
  obtain ⟨x, hk⟩ | ⟨bs, -, hk⟩ := withMem_cases m addr n k <;> rw [hk]
  · exact nofun
  · exact h _

theorem modExpBRule_writesOnSuccess {zeroModulus : OpOutcome} (hz : zeroModulus.WritesOnSuccess) (n : Nat) (m : Memory)
    (a b c d : Word) : (modExpBRule zeroModulus n m a b c d).WritesOnSuccess :=
  withInput_writesOnSuccess n a fun oB nB => withInput_writesOnSuccess n b fun oE nE =>
  withInput_writesOnSuccess n c fun oM nM => withOutput_writesOnSuccess n nM d fun oOut =>
  withMem_writesOnSuccess m oB nB fun _ => withMem_writesOnSuccess m oE nE fun _ =>
  withMem_writesOnSuccess m oM nM fun modulus => by
    split
    · exact hz
    · exact nofun

/-- R224, R225: a byte-string command that succeeds writes its result to BUF. -/
theorem outcomeOf_writesOnSuccess {i : Instr} (hi : i = .modExpB ∨ i = .tryModExpB) (s : State) :
    (outcomeOf i s).WritesOnSuccess := by
  obtain ⟨zeroModulus, hmem, hout⟩ := outcomeOf_byteString hi s
  have hz : zeroModulus.WritesOnSuccess := by
    simp only [List.mem_cons, List.not_mem_nil, or_false] at hmem
    obtain rfl | rfl := hmem <;> exact nofun
  rw [hout]
  exact withOperand_writesOnSuccess .A s fun a => withOperand_writesOnSuccess .B s fun b =>
    withOperand_writesOnSuccess .C s fun c => withOperand_writesOnSuccess .D s fun d =>
      modExpBRule_writesOnSuccess hz s.bufBytes s.buf a b c d

/-! ### What a success leaves of BUF -/

theorem toNat_lengthField (v : Word) : (v.extractLsb' 32 32).toNat = v.toNat / 2 ^ 32 % 2 ^ 32 := by
  rw [BitVec.extractLsb'_toNat, Nat.shiftRight_eq_div_pow]

section
variable {i : Instr} {s : State} {r : WideWord} {write : Option (Nat × List Byte)}
  (h : outcomeOf i s = .success r write)
include h

/-- R51: a success of any other command leaves BUF as it is. -/
theorem applyWrite_eq_of_success (hB : i ≠ .modExpB) (hTryB : i ≠ .tryModExpB) : applyWrite write s.buf = s.buf := by
  have hnone : (outcomeOf i s).bufWrite = none := outcomeOf_bufWrite_none hB hTryB s
  rw [h] at hnone
  obtain rfl : write = none := hnone
  rfl

/-- R67, R78: a success of a byte-string command leaves BUF as it is outside the range that D and C's length name. -/
theorem read_applyWrite_of_byteString_success (hi : i = .modExpB ∨ i = .tryModExpB) :
    ∃ oOut, outputDescriptor s.bufBytes (s.c.value.extractLsb' 32 32).toNat s.d.value = some oOut ∧
      ∀ addr, addr < oOut ∨ oOut + (s.c.value.extractLsb' 32 32).toNat ≤ addr →
        (applyWrite write s.buf).read addr = s.buf.read addr := by
  cases write with
  | none => exact absurd h (outcomeOf_writesOnSuccess hi s r)
  | some w =>
    obtain ⟨-, c, d, hc, hd, hdesc, hlen⟩ := outcomeOf_bufWrite (show (outcomeOf i s).bufWrite = some w by rw [h]; rfl)
    have hcv : s.c.value = c := congrArg OperandReg.value hc
    have hdv : s.d.value = d := congrArg OperandReg.value hd
    rw [hcv, hdv, toNat_lengthField, ← hlen]
    exact ⟨w.1, hlen ▸ hdesc, fun addr => Memory.read_writeBytes_outside w.2 s.buf w.1 addr⟩

end

/-! ### The statement -/

/-- Settles O55: the four disjuncts are the commits of the four outcomes, and a success changes BUF as stated above. -/
theorem everyCommandHasOneOfFourOutcomes : Obligations.EveryCommandHasOneOfFourOutcomes := by
  intro i s
  have hexec := exec_eq_commit i s
  cases ho : outcomeOf i s with
  | success r write =>
    rw [ho, commit_success] at hexec
    exact .inl ⟨r.high, r.low, applyWrite write s.buf, hexec, applyWrite_eq_of_success ho,
      read_applyWrite_of_byteString_success ho⟩
  | tryFail => exact .inr (.inl (by rw [hexec, ho, commit_tryFail]))
  | raise e => exact .inr (.inr (.inl ⟨e.code, e.code_mem, by rw [hexec, ho, commit_raise]⟩))
  | modelFault f => exact .inr (.inr (.inr ⟨f, by rw [hexec, ho, commit_modelFault]⟩))

end Sys2Proof.Machine
end

section
/-! Reset (70_reset_and_hazards.md R290, R291): the state right after power-on, for every size of BUF in the range of R6,
and what the host's reset transaction makes of any state. -/

namespace Sys2Proof.Config

/-- R6: the open parameter lies in its range, by the type of `bufBytesLessOne`. -/
theorem bufBytes_range : 1 ≤ bufBytes ∧ bufBytes ≤ 2 ^ 32 - 1 := by
  have hlt : bufBytesLessOne.val < 4294967295 := bufBytesLessOne.isLt
  unfold bufBytes
  omega

end Sys2Proof.Config

namespace Sys2Proof.Machine

/-! ### The state after power-on -/

@[simp] theorem Memory.read_nil (addr : Nat) : Memory.read [] addr = none := rfl

/-- R290: STATUS after reset, its three fields all 0. -/
theorem statusWord_resetWith (n : Nat) : statusWord (State.resetWith n) = 0 := by
  rw [statusWord_eq]
  rfl

/-- The base of the invariant: with BUF empty and STATUS, HI and LO 0, it asks of the size of BUF alone. -/
theorem State.resetWith_inv {n : Nat} (hn : 1 ≤ n ∧ n ≤ 2 ^ 32 - 1) : (State.resetWith n).Inv where
  bufWf := List.Pairwise.nil
  bufInRange := nofun
  bufBytesRange := hn
  errCode := Nat.zero_le 5
  errReported := fun herr => absurd rfl herr
  placeholder := fun _ _ => ⟨rfl, rfl⟩

/-- Settles O53: the parameter BUF_BYTES lies in its range. -/
theorem resetMeetsTheInvariant : Obligations.ResetMeetsTheInvariant := State.resetWith_inv Config.bufBytes_range

/-- Settles O17: the registers are those of `State.resetWith`, no address of the empty BUF is written, and BUF_BYTES
lies in its range. -/
theorem powerOnResetState : Obligations.PowerOnResetState := by
  obtain ⟨hpos, hle⟩ := Config.bufBytes_range
  exact ⟨rfl, rfl, rfl, rfl, rfl, rfl, rfl, statusWord_resetWith Config.bufBytes, Memory.read_nil, rfl, hpos, hle⟩

/-! ### The reset transaction -/

/-- R290: a reset transaction resets the unit and runs no command. -/
theorem step_reset {s : State} {rest : List HostTxn} (hp : s.pending = .reset :: rest) :
    step s = .next (applyReset (accept rest s)) :=
  step_pending s .reset rest hp

/-- Settles O16: the model's Word for an unwritten operand register is 0, and `applyReset` keeps the record and the host's
side of the state that has taken the transaction. -/
theorem resetTransactionResetsTheUnit : Obligations.ResetTransactionResetsTheUnit := by
  intro s rest hp
  exact ⟨0, step_reset hp⟩

end Sys2Proof.Machine
end
